-- ==== Sys2Proof/Word.lean ====
section
/-! DEFINITION. The words that cross the codec's ports: the byte of the wire format (spec/20_memory.md R53,
spec/30_encoding.md R70) and the two response words (spec/30_encoding.md R78). -/

namespace Sys2Proof

/-- One byte on the sink or source port, `WIRE8` (R53, R70): bit 7 the continuation bit, bits 6:0 the group. -/
abbrev Byte := BitVec 8

/-- A payload group, the low 7 bits of a byte (R70). -/
abbrev Payload := BitVec 7

/-- The sink's response word `SNKRSP1` (R78): bit 0 is `f`. -/
abbrev SnkWord := BitVec 1

/-- The source's response word `SRCRSP10` (R78): bit 9 `f`, bit 8 `e`, bit 7 `c`, bits 6:0 `g`. -/
abbrev SrcWord := BitVec 10

end Sys2Proof
end

