-- ==== Sys2Proof/Syntax.lean ====
section
/-! DEFINITION. The codec's operations, one constructor per row of spec/opcode_table.json, with the operands the
rules of spec/40_encoder.md, spec/41_decoder.md and spec/70_reset_and_hazards.md give them. -/

namespace Sys2Proof

/-- The eleven operations of spec/30_encoding.md R80. A command value and a failure description are natural
numbers here (spec/00_scope.md R13: "a value of width n is a natural number below 2^n"); their widths are the
instance's and are checked by `Instr.wellFormed`. -/
inductive Instr where
  /-- RESET (R200). -/
  | reset
  /-- ENC.START (R91): `x` is the value on the command port. -/
  | encStart (x : Nat)
  /-- ENC.EMIT.FINAL (R92): the byte is the datapath's, no operand. -/
  | encEmitFinal
  /-- ENC.EMIT.CONT (R93): the byte is the datapath's, no operand. -/
  | encEmitCont
  /-- ENC.ABORT (R94): `info` is the sink's failure description. -/
  | encAbort (info : Nat)
  /-- DEC.START (R111). -/
  | decStart
  /-- DEC.BYTE.FINAL (R112): the delivered byte is `0ggggggg`. -/
  | decByteFinal (g : Payload)
  /-- DEC.BYTE.CONT (R113): the delivered byte is `1ggggggg`. -/
  | decByteCont (g : Payload)
  /-- DEC.OVERFLOW (R114): the delivered byte `cggggggg`, either value of `c`. -/
  | decOverflow (b : Byte)
  /-- DEC.EOF (R115). -/
  | decEof
  /-- DEC.FAIL (R116): `info` is the source's failure description. -/
  | decFail (info : Nat)
deriving DecidableEq, Repr

end Sys2Proof
end

