-- ==== Sys2Proof/Config.lean ====
section
/-! DEFINITION. What an instance fixes (spec/00_scope.md R8 to R12: the widths of the two units and the type of failure
descriptions), the constants derived from a width (R10), and the free values that stand where the spec leaves a
register unspecified (spec/93_implementation_defined.md U9, U10). -/

namespace Sys2Proof

/-- The type of failure descriptions, `IoInfo` (R11; spec/92_eei_decisions.md D9), a parameter of the instance. State is
plain data, so a value of the type is held as its number; which numbers are values is what the type comes to for a
block that never looks at one. `Coding` (Machine/IoInfo.lean) reads the numbers as the values of any type that they
number (notes/assumptions/8.md). -/
inductive IoType where
  /-- The `fw`-bit vectors, any `fw`: the form of a hardware instance (R11). -/
  | bits (fw : Nat)
  /-- A type of finitely many values, numbered 0 to `last`; it has one at least. -/
  | finite (last : Nat)
  /-- A type of infinitely many values, each with a number. -/
  | countable
deriving DecidableEq, Repr

/-- Whether the number is a value of the type. -/
def IoType.has : IoType → Nat → Bool
  | .bits fw, i => decide (i < 2 ^ fw)
  | .finite last, i => decide (i ≤ last)
  | .countable, _ => true

/-- The values of the type. -/
abbrev IoType.Info (t : IoType) : Type := { i : Nat // t.has i = true }

/-- `IoInfo` is non-empty (R11). -/
theorem IoType.has_zero (t : IoType) : t.has 0 = true := by
  cases t with
  | bits fw => exact decide_eq_true (Nat.two_pow_pos fw)
  | finite last => exact decide_eq_true (Nat.zero_le last)
  | countable => rfl

/-- The parameters of an instance (R8, R11; spec/92_eei_decisions.md D3, D9): the value widths of the two units,
each at least 1, and the type of failure descriptions, any. -/
structure Config where
  wEnc : Nat
  wDec : Nat
  io : IoType
  wEnc_pos : 0 < wEnc
  wDec_pos : 0 < wDec
deriving DecidableEq, Repr

/-- The least number of bits `n` with `m < 2 ^ n` (the form of SW and CW in R10). -/
def bitsFor (m : Nat) : Nat := if m = 0 then 0 else Nat.log2 m + 1

/-- `NMAX = ceil(w / 7)`, the largest number of bytes in one encoding of a `w`-bit value (R10). -/
def nmax (w : Nat) : Nat := (w + 6) / 7

/-- `SHIFT_MAX = 7 * (NMAX - 1)`, the largest value `DEC_SHIFT` takes (R10). -/
def shiftMax (w : Nat) : Nat := 7 * (nmax w - 1)

/-- `SW`, the width of `DEC_SHIFT`: the least `n >= 1` with `2 ^ n > SHIFT_MAX` (R10). -/
def shiftWidth (w : Nat) : Nat := max 1 (bitsFor (shiftMax w))

/-- `CW`, the width of the byte count output: the least `n` with `2 ^ n > NMAX` (R10). -/
def countWidth (w : Nat) : Nat := bitsFor (nmax w)

/-- `SW` of the instance's decoder. -/
abbrev Config.sw (c : Config) : Nat := shiftWidth c.wDec

/-- `CW` of the instance's decoder. -/
abbrev Config.cw (c : Config) : Nat := countWidth c.wDec

/-- The registers that R200 or R178 leaves unspecified after a step. -/
inductive FreeReg where
  | encV
  | encInfo
  | decResult
  | decShift
  | decInfo
deriving DecidableEq, Repr

/-- The value an unspecified register holds (U9, U10): `freeValue d r w` is the `w`-bit content that register `r`
takes in the `d`-th step that leaves registers unspecified. It has no body, so nothing can be proved of it
(notes/assumptions/3.md). -/
opaque Config.freeValue : Nat → FreeReg → (w : Nat) → BitVec w

/-- The same for a register that holds a failure description, as a number; it has no body
(notes/assumptions/3.md). -/
opaque Config.freeNumber : Nat → FreeReg → Nat

end Sys2Proof
end

