-- ==== Sys2Proof/WellFormed.lean ====
section
/-! DEFINITION. The widths an operation's operands have at the instance's ports (spec/00_scope.md R8, R11). -/

namespace Sys2Proof

/-- The operand fits its port: a command value is W_ENC bits (spec/40_encoder.md R91, R101), a failure description
is a value of IoInfo (R11, R94, R116). Every other operand has its width by type. -/
def Instr.wellFormed (c : Config) : Instr → Bool
  | .reset => true
  | .encStart x => decide (x < 2 ^ c.wEnc)
  | .encEmitFinal => true
  | .encEmitCont => true
  | .encAbort info => c.io.has info
  | .decStart => true
  | .decByteFinal _ => true
  | .decByteCont _ => true
  | .decOverflow _ => true
  | .decEof => true
  | .decFail info => c.io.has info

end Sys2Proof
end

