-- ==== Sys2Proof/Decode.lean ====
section
/-! DEFINITION. From a completed port transfer to an operation. A transfer carries the raw words of
spec/30_encoding.md R78 and R79; its words are read as an event (R78, R81); the operation map R80 gives the operation
that the event selects under the datapath's signals, or names why it selects none. Then the encoder of operations,
written from the same table. -/

namespace Sys2Proof

/-- A completed transfer on one of the ports, with the words that cross it (R78, R79). `info` travels beside a
response word on `snk_info` or `src_info` and is ignored unless the word says `Fail`. -/
inductive Transfer where
  /-- An active `rst` at a clock edge. -/
  | rst
  /-- A transfer on `enc_cmd` with `enc_cmd_value`. -/
  | encCmd (value : Nat)
  /-- The sink's answer to the offered byte. -/
  | snkRsp (word : SnkWord) (info : Nat)
  /-- A transfer on `dec_cmd`. -/
  | decCmd
  /-- The source's answer to the request. -/
  | srcRsp (word : SrcWord) (info : Nat)
deriving DecidableEq, Repr

/-- The events of the script notation (R81), the environment's choices of spec/20_memory.md R51 and R52. -/
inductive Event where
  | reset
  | encStart (x : Nat)
  | snkAccept
  | snkFail (info : Nat)
  | decStart
  | srcByte (b : Byte)
  | srcEnd
  | srcFail (info : Nat)
deriving DecidableEq, Repr

/-- Why an event selects no operation (R80; R96, R118). -/
inductive NoStep where
  /-- A command on `enc_cmd` while ENC runs: `enc_ready = 0` (R96). -/
  | encBusy
  /-- A sink answer while no byte is on offer (R96). -/
  | nothingOffered
  /-- A command on `dec_cmd` while DEC runs: `dec_ready = 0` (R118). -/
  | decBusy
  /-- A source answer while no byte is requested (R118). -/
  | nothingRequested
deriving DecidableEq, Repr

/-- What an event comes to: the operation it selects, or the name of why it selects none. -/
inductive Selection where
  | op (i : Instr)
  | noStep (why : NoStep)
deriving DecidableEq, Repr

/-- The operation, where there is one. -/
def Selection.instr? : Selection → Option Instr
  | .op i => some i
  | .noStep _ => none

/-- The payload group of a byte, bits 6:0 (R70); the datapath's PAYLOAD (spec/41_decoder.md R110). -/
def payload (b : Byte) : Payload := b.setWidth 7

/-- The continuation bit of a byte, bit 7 (R70); the datapath's CONT (R110). -/
def contBit (b : Byte) : Bool := b.getLsbD 7

/-- `{c, g}`: the byte with continuation bit `c` and payload group `g` (R70). -/
def wireByte (c : Bool) (g : Payload) : Byte := BitVec.ofBool c ++ g

/-- Field `f` of SRCRSP10, bit 9 (R78). -/
def srcFailBit (w : SrcWord) : Bool := w.getLsbD 9

/-- Field `e` of SRCRSP10, bit 8 (R78). -/
def srcEndBit (w : SrcWord) : Bool := w.getLsbD 8

/-- Fields `c` and `g` of SRCRSP10, bits 7:0: the delivered byte (R78). -/
def srcData (w : SrcWord) : Byte := w.setWidth 8

/-- The SRCRSP10 word with fields `f`, `e` and data `b`. -/
def srcWord (f e : Bool) (b : Byte) : SrcWord := BitVec.ofBool f ++ (BitVec.ofBool e ++ b)

/-- Reading the words of a transfer (R78): fail beats end beats data, and ignored bits are ignored. -/
def Transfer.event : Transfer → Event
  | .rst => .reset
  | .encCmd value => .encStart value
  | .snkRsp w info => if w.getLsbD 0 then .snkFail info else .snkAccept
  | .decCmd => .decStart
  | .srcRsp w info =>
    if srcFailBit w then .srcFail info
    else if srcEndBit w then .srcEnd
    else .srcByte (srcData w)

/-- The transfer that carries an event, with every ignored bit 0 (notes/assumptions/15.md). -/
def Event.transfer : Event → Transfer
  | .reset => .rst
  | .encStart x => .encCmd x
  | .snkAccept => .snkRsp 0 0
  | .snkFail info => .snkRsp 1 info
  | .decStart => .decCmd
  | .srcByte b => .srcRsp (srcWord false false b) 0
  | .srcEnd => .srcRsp (srcWord false true 0) 0
  | .srcFail info => .srcRsp (srcWord true false 0) info

/-- The signals of the state and the datapaths that R80's conditions test: whether each unit's phase is RUN, MORE
(spec/40_encoder.md R90), and OVF for the delivered byte (R110). -/
structure Signals where
  encRun : Bool
  more : Bool
  decRun : Bool
  ovf : Bool
deriving DecidableEq, Repr

/-- The operation map R80: the operation an event selects. OVF is tested before the continuation bit
(spec/60_exceptions.md R177). -/
def selectOp (g : Signals) : Event → Selection
  | .reset => .op .reset
  | .encStart x => if g.encRun then .noStep .encBusy else .op (.encStart x)
  | .snkAccept =>
    if g.encRun then (if g.more then .op .encEmitCont else .op .encEmitFinal) else .noStep .nothingOffered
  | .snkFail info => if g.encRun then .op (.encAbort info) else .noStep .nothingOffered
  | .decStart => if g.decRun then .noStep .decBusy else .op .decStart
  | .srcByte b =>
    if g.decRun then
      (if g.ovf then .op (.decOverflow b)
       else if contBit b then .op (.decByteCont (payload b))
       else .op (.decByteFinal (payload b)))
    else .noStep .nothingRequested
  | .srcEnd => if g.decRun then .op .decEof else .noStep .nothingRequested
  | .srcFail info => if g.decRun then .op (.decFail info) else .noStep .nothingRequested

/-- Decoding a transfer under the datapath's signals: total, and naming why where no operation is selected. -/
def decode (g : Signals) (t : Transfer) : Selection := selectOp g t.event

/-- Encoding an operation as the transfer that selects it, from the table's patterns (R80, opcode_table.json): the
ignored bits `d` and `e` of DEC.EOF and DEC.FAIL are 0. -/
def encode : Instr → Transfer
  | .reset => .rst
  | .encStart x => .encCmd x
  | .encEmitFinal => .snkRsp 0b0#1 0
  | .encEmitCont => .snkRsp 0b0#1 0
  | .encAbort info => .snkRsp 0b1#1 info
  | .decStart => .decCmd
  | .decByteFinal g => .srcRsp (0b000#3 ++ g) 0
  | .decByteCont g => .srcRsp (0b001#3 ++ g) 0
  | .decOverflow b => .srcRsp (0b00#2 ++ b) 0
  | .decEof => .srcRsp 0b0100000000#10 0
  | .decFail info => .srcRsp 0b1000000000#10 info

/-- R80's column "Selected when", over the signals. -/
def Instr.selectedUnder (g : Signals) : Instr → Bool
  | .reset => true
  | .encStart _ => !g.encRun
  | .encEmitFinal => g.encRun && !g.more
  | .encEmitCont => g.encRun && g.more
  | .encAbort _ => g.encRun
  | .decStart => !g.decRun
  | .decByteFinal _ => g.decRun && !g.ovf
  | .decByteCont _ => g.decRun && !g.ovf
  | .decOverflow _ => g.decRun && g.ovf
  | .decEof => g.decRun
  | .decFail _ => g.decRun

/-- The word of the opcode table as a transfer: a row of up to 8 bits is a SNKRSP1 word, a row of up to 16 bits a
SRCRSP10 word; bits above the format's width are no word of it. The side band `info` is 0. -/
def tableTransfer (nbits w : Nat) : Option Transfer :=
  if nbits = 0 then none
  else if nbits ≤ 8 then (if w < 2 then some (.snkRsp (BitVec.ofNat 1 w) 0) else none)
  else if nbits ≤ 16 then (if w < 1024 then some (.srcRsp (BitVec.ofNat 10 w) 0) else none)
  else none

/-- The signals under which a bare table word is read: both units in RUN with ENC_V = 0 (so MORE = 0) and DEC_RESULT =
DEC_SHIFT = 0 at a width of at least 8 (so OVF = 0). Rows of the table share words, and the state tells them apart
(R80; notes/assumptions/11.md). -/
def tableSignals : Signals := { encRun := true, more := false, decRun := true, ovf := false }

/-- The operation the decoder reads from a bare word of the opcode table. -/
def decodeTableWord (nbits w : Nat) : Option Instr :=
  match tableTransfer nbits w with
  | some t => (decode tableSignals t).instr?
  | none => none

end Sys2Proof
end

