-- ==== Sys2Proof/Machine/State.lean ====
section
/-! DEFINITION. The codec's state as plain data: the nine registers of spec/10_state.md R21 and nothing else of the
block's (R31), the byte streams the spec has a model record (spec/20_memory.md R51, R60), the environment's coming
transfers, and the instance's parameters; its stops; and the state after reset (R35). -/

namespace Sys2Proof.Machine

/-- The phase of a unit (R22). Code 3 is "never reached" and "should be refused": no constructor has it, so no state
of the model holds it (notes/assumptions/7.md). -/
inductive Phase where
  | idle
  | run
  | done
deriving DecidableEq, Repr

/-- The 2-bit code of a phase (R22). -/
def Phase.code : Phase → BitVec 2
  | .idle => 0
  | .run => 1
  | .done => 2

/-- Reading a phase code; code 3 is refused (R22, spec/93_implementation_defined.md U13). -/
def Phase.ofCode (c : BitVec 2) : Option Phase :=
  if c = 0 then some .idle else if c = 1 then some .run else if c = 2 then some .done else none

/-- The outcome code of an operation (R28; spec/60_exceptions.md R170). -/
inductive Status where
  | ok
  | truncatedInput
  | overflow
  | ioFailure
deriving DecidableEq, Repr

/-- The 2-bit code of an outcome (R28, R170). -/
def Status.code : Status → BitVec 2
  | .ok => 0
  | .truncatedInput => 1
  | .overflow => 2
  | .ioFailure => 3

/-- The two units (R20). -/
inductive UnitId where
  | enc
  | dec
deriving DecidableEq, Repr

/-- An error kind with what it records (R170); a failure description is a value of the instance's IoInfo (R11). -/
inductive ErrorKind (io : IoType) where
  | truncatedInput
  | overflow
  | ioFailure (info : io.Info)
deriving DecidableEq, Repr

/-- The state. Register widths are those of the instance `cfg`, which no step changes (R8, R32;
notes/assumptions/1.md). -/
structure State where
  /-- The instance's parameters (R8, R11). -/
  cfg : Config
  /-- `ENC_PHASE` (R21, R22). -/
  encPhase : Phase
  /-- `ENC_V`, the remaining value (R23). -/
  encV : BitVec cfg.wEnc
  /-- `ENC_STATUS` (R28). -/
  encStatus : Status
  /-- `ENC_INFO` (R28). -/
  encInfo : cfg.io.Info
  /-- `DEC_PHASE` (R21, R22). -/
  decPhase : Phase
  /-- `DEC_RESULT`, the accumulated value (R26). -/
  decResult : BitVec cfg.wDec
  /-- `DEC_SHIFT`, the bit position of the next group (R26). -/
  decShift : BitVec cfg.sw
  /-- `DEC_STATUS` (R28). -/
  decStatus : Status
  /-- `DEC_INFO` (R28). -/
  decInfo : cfg.io.Info
  /-- The sink stream: the bytes the sink accepted, oldest first (spec/20_memory.md R51). -/
  sinkStream : List Byte
  /-- The bytes consumed from the source, oldest first (spec/20_memory.md R60, spec/60_exceptions.md R179). -/
  sourceTaken : List Byte
  /-- The environment's coming transfers, the next one first (R32; notes/assumptions/5.md). -/
  inputs : List Transfer
  /-- The model's own count of the steps that left registers unspecified; it numbers the free values
  (notes/assumptions/3.md). -/
  draws : Nat
deriving DecidableEq, Repr

/-- The machine has no fault: the spec's error completions are steps (spec/60_exceptions.md R178) and "nothing else is
an error" (R175), so no operation raises one (notes/assumptions/16.md). Safe. -/
inductive Fault where
deriving DecidableEq, Repr

/-- Why an operation has no meaning where it is asked for. -/
inductive Refusal where
  /-- Raised only by an arm of `exec` whose operation has no meaning yet; safe. -/
  | notModelled (mnemonic : String)
  /-- Raised by ENC.START for a command value of W_ENC bits or more: the port is W_ENC bits wide, so it cannot be
  presented (spec/40_encoder.md R101, spec/91_not_in_source.md N13). Safe: it stops where no hardware can go. -/
  | commandTooWide
  /-- Raised by ENC.ABORT and DEC.FAIL for a failure description that is no value of IoInfo (spec/00_scope.md R11). Safe:
  it cannot be presented. -/
  | infoTooWide
  /-- Raised by ENC.EMIT.FINAL, ENC.EMIT.CONT, DEC.BYTE.FINAL, DEC.BYTE.CONT and DEC.OVERFLOW in phase RUN where MORE or
  OVF selects a sibling operation for the same answer (spec/30_encoding.md R80): the operation's `require` does not
  hold. Safe: `step` never asks for such an operation (notes/assumptions/10.md). -/
  | notSelected (mnemonic : String)
deriving DecidableEq, Repr

/-- What an operation or a step answers. -/
abbrev Answer := Host.Outcome State Fault Refusal

/-- The state after reset of an instance (R35): both units IDLE with status 0. The five registers R35 leaves
unspecified hold 0 (the info registers the value numbered 0) here, a DESIGN CHOICE (notes/assumptions/2.md), as do the empty streams and the empty list of
coming transfers (notes/assumptions/5.md, 6.md) and the count of free values (notes/assumptions/4.md). -/
def State.resetOf (c : Config) : State where
  cfg := c
  encPhase := .idle
  encV := 0
  encStatus := .ok
  encInfo := ⟨0, c.io.has_zero⟩
  decPhase := .idle
  decResult := 0
  decShift := 0
  decStatus := .ok
  decInfo := ⟨0, c.io.has_zero⟩
  sinkStream := []
  sourceTaken := []
  inputs := []
  draws := 0

/-- The instance of `State.reset`: W = 64 for both units, a named instance of spec/00_scope.md R8, and FW = 32. DESIGN
CHOICE (notes/assumptions/1.md); statements are made for every instance. -/
def standardConfig : Config where
  wEnc := 64
  wDec := 64
  io := .bits 32
  wEnc_pos := by decide
  wDec_pos := by decide

/-- The machine right after reset. -/
def State.reset : State := State.resetOf standardConfig

end Sys2Proof.Machine
end

