-- ==== Sys2Proof/Machine/Operands.lean ====
section
/-! DEFINITION. The operands of the operations: a port value at its port's width, and the data signals of the two
datapaths (spec/40_encoder.md R90: GROUP, REST, NEXT; spec/41_decoder.md R110: TERM, SUM; PAYLOAD and CONT are
`payload` and `contBit` of Decode.lean). All arithmetic is unsigned (spec/00_scope.md R13, R15) and exact or of the
width spec/42_functions_and_laws.md R154 gives. -/

namespace Sys2Proof.Machine

/-- A number seen at width `w`, where it fits (`zext_N`, spec/00_scope.md R15). -/
def atWidth (w x : Nat) : Option (BitVec w) := if x < 2 ^ w then some (BitVec.ofNat w x) else none

/-- A failure description seen as a value of the instance's IoInfo, where it is one (R11). -/
def ioValue (t : IoType) (i : Nat) : Option t.Info := if h : t.has i = true then some ⟨i, h⟩ else none

/-- The value numbered `i` where the type has it, else the value numbered 0; so a free number becomes a free value of the
type (notes/assumptions/3.md). -/
def ioClip (t : IoType) (i : Nat) : t.Info := (ioValue t i).getD ⟨0, t.has_zero⟩

/-- `GROUP = zext_W(ENC_V) mod 128`, 7 bits; for W below 7 zero extended (R90, R154). -/
def State.encGroup (s : State) : Payload := s.encV.setWidth 7

/-- `REST = ENC_V >> 7`, zeros entering at the top (R90). -/
def State.encRest (s : State) : BitVec s.cfg.wEnc := s.encV >>> 7

/-- `NEXT = REST - 1` (R90). -/
def State.encNext (s : State) : BitVec s.cfg.wEnc := s.encRest - 1

/-- `TERM`, exact: the payload at DEC_SHIFT, and 1 at the next group's place when the continuation bit is set, the
increment-on-continue restorer (R110). -/
def State.decTerm (s : State) (b : Byte) : Nat :=
  ((payload b).toNat <<< s.decShift.toNat) + ((contBit b).toNat <<< (s.decShift.toNat + 7))

/-- `SUM = DEC_RESULT + TERM`, exact (R110, R154). -/
def State.decSum (s : State) (b : Byte) : Nat := s.decResult.toNat + s.decTerm b

end Sys2Proof.Machine
end

