-- ==== Sys2Proof/Machine/Flags.lean ====
section
/-! DEFINITION. The one-bit signals of the datapaths. The block has no flag register and no condition codes
(spec/10_state.md R27): these are combinational tests of the registers, and BYTE is the byte they complete. -/

namespace Sys2Proof.Machine

/-- `MORE = (REST != 0)` (spec/40_encoder.md R90). -/
def State.encMore (s : State) : Bool := s.encRest != 0

/-- `BYTE = {MORE, GROUP}`, the continuation-bit mux (R90). -/
def State.encByte (s : State) : Byte := wireByte s.encMore s.encGroup

/-- `OVF = (SUM >= 2^W)`, on the exact sum (spec/41_decoder.md R110, R125). -/
def State.ovf (s : State) (b : Byte) : Bool := decide (2 ^ s.cfg.wDec ≤ s.decSum b)

/-- The signals R80's conditions test, in state `s`, for the event of transfer `t`; OVF is asked only of a delivered
byte. -/
def State.signals (s : State) (t : Transfer) : Signals where
  encRun := s.encPhase == .run
  more := s.encMore
  decRun := s.decPhase == .run
  ovf := match t.event with
    | .srcByte b => s.ovf b
    | _ => false

end Sys2Proof.Machine
end

