-- ==== Sys2Proof/Machine/Ops.lean ====
section
/-! DEFINITION. The named operations over the registers and the streams: the primitives of spec/00_scope.md R16
(an accepted byte, a consumed byte, `complete OK`, `raise K(info)`), and error completion, the block's counterpart of
taking an exception, as ONE operation (spec/60_exceptions.md R178). There is no return from one (R180): the next START
begins afresh. -/

namespace Sys2Proof.Machine

/-- Going on from an answer. -/
def andThen (a : Answer) (f : State → Answer) : Answer :=
  match a with
  | .next s => f s
  | .fault r => .fault r
  | .refused r => .refused r

/-- `SnkWrite(b)` answered `Accept`: the sink stream grows at its end (spec/20_memory.md R51). -/
def State.pushSink (s : State) (b : Byte) : State := { s with sinkStream := s.sinkStream ++ [b] }

/-- `SrcRead()` answered `Byte(b)`: the byte is consumed, once (spec/20_memory.md R60). -/
def State.takeByte (s : State) (b : Byte) : State := { s with sourceTaken := s.sourceTaken ++ [b] }

/-- An encode begins: the value is loaded and the unit runs (spec/40_encoder.md R91). -/
def State.beginEnc (s : State) (v : BitVec s.cfg.wEnc) : State := { s with encV := v, encPhase := .run }

/-- ENC_V is loaded with NEXT, decrement-on-continue (spec/40_encoder.md R90, R93). -/
def State.loadNext (s : State) : State := { s with encV := s.encNext }

/-- A decode begins: result and shift are cleared and the unit runs (spec/41_decoder.md R111). -/
def State.beginDec (s : State) : State := { s with decResult := 0, decShift := 0, decPhase := .run }

/-- The byte is consumed and `DEC_RESULT <- SUM`, for a byte whose sum fits (spec/41_decoder.md R112, R113). -/
def State.accumulate (s : State) (b : Byte) : State :=
  { s.takeByte b with decResult := BitVec.ofNat s.cfg.wDec (s.decSum b) }

/-- `DEC_SHIFT <- DEC_SHIFT + 7` (spec/41_decoder.md R113). -/
def State.advanceShift (s : State) : State := { s with decShift := s.decShift + 7 }

/-- `complete OK` (spec/00_scope.md R16): the unit's phase and status. -/
def State.completeOk (s : State) : UnitId → State
  | .enc => { s with encPhase := .done, encStatus := .ok }
  | .dec => { s with decPhase := .done, decStatus := .ok }

/-- The status an error kind records (R170). -/
def errorStatus {io : IoType} : ErrorKind io → Status
  | .truncatedInput => .truncatedInput
  | .overflow => .overflow
  | .ioFailure _ => .ioFailure

/-- What an error kind leaves in the unit's info register: its description for `IoFailure`, else what was there
(R178 "otherwise not written"). -/
def errorInfo {io : IoType} (old : io.Info) : ErrorKind io → io.Info
  | .truncatedInput => old
  | .overflow => old
  | .ioFailure info => info

/-- `raise K(info)`, error completion (R178): phase DONE, the status code, the description for `IoFailure` only; for DEC
the result and the shift become unspecified, each a free value (notes/assumptions/3.md). The other unit is not
touched. -/
def State.raise (s : State) (u : UnitId) (k : ErrorKind s.cfg.io) : State :=
  match u with
  | .enc => { s with encPhase := .done, encStatus := errorStatus k, encInfo := errorInfo s.encInfo k }
  | .dec =>
    { s with
      decPhase := .done
      decStatus := errorStatus k
      decInfo := errorInfo s.decInfo k
      decResult := Config.freeValue s.draws .decResult s.cfg.wDec
      decShift := Config.freeValue s.draws .decShift s.cfg.sw
      draws := s.draws + 1 }

end Sys2Proof.Machine
end

