-- ==== Sys2Proof/Machine/Decoder.lean ====
section
/-! DEFINITION. The decoder's operations (spec/41_decoder.md). In a phase where the operation's event causes no step
(R118) the state is unchanged. -/

namespace Sys2Proof.Machine

/-- DEC.START (R111): clear result and shift and run. A command in phase RUN is not accepted and changes nothing
(R118). -/
def execDecStart (s : State) : Answer :=
  if s.decPhase = .run then .next s
  else .next s.beginDec

/-- DEC.BYTE.FINAL (R112): the final byte is added, the decode completes, DEC_SHIFT is kept. -/
def execDecByteFinal (g : Payload) (s : State) : Answer :=
  if s.decPhase = .run then
    if s.ovf (wireByte false g) then .refused (.notSelected "DEC.BYTE.FINAL")
    else .next ((s.accumulate (wireByte false g)).completeOk .dec)
  else .next s

/-- DEC.BYTE.CONT (R113): the whole continuation byte is added and DEC_SHIFT moves on by 7. -/
def execDecByteCont (g : Payload) (s : State) : Answer :=
  if s.decPhase = .run then
    if s.ovf (wireByte true g) then .refused (.notSelected "DEC.BYTE.CONT")
    else .next (s.accumulate (wireByte true g)).advanceShift
  else .next s

/-- DEC.OVERFLOW (R114): the byte is consumed; error completion `Overflow`. -/
def execDecOverflow (b : Byte) (s : State) : Answer :=
  if s.decPhase = .run then
    if s.ovf b then .next ((s.raise .dec .overflow).takeByte b)
    else .refused (.notSelected "DEC.OVERFLOW")
  else .next s

/-- DEC.EOF (R115): error completion `TruncatedInput`. -/
def execDecEof (s : State) : Answer :=
  if s.decPhase = .run then .next (s.raise .dec .truncatedInput) else .next s

/-- DEC.FAIL (R116): error completion `IoFailure(info)`. -/
def execDecFail (info : Nat) (s : State) : Answer :=
  if s.decPhase = .run then
    match ioValue s.cfg.io info with
    | some v => .next (s.raise .dec (.ioFailure v))
    | none => .refused .infoTooWide
  else .next s

end Sys2Proof.Machine
end

