-- ==== Sys2Proof/Machine/Encoder.lean ====
section
/-! DEFINITION. The encoder's operations (spec/40_encoder.md). In a phase where the operation's event causes no step
(R96) the state is unchanged. -/

namespace Sys2Proof.Machine

/-- ENC.START (R91): load the value and run. A command in phase RUN is not accepted and changes nothing (R96). -/
def execEncStart (x : Nat) (s : State) : Answer :=
  if s.encPhase = .run then .next s
  else match atWidth s.cfg.wEnc x with
    | some v => .next (s.beginEnc v)
    | none => .refused .commandTooWide

/-- ENC.EMIT.FINAL (R92): the sink takes BYTE with MORE = 0, the encode completes, ENC_V is kept. -/
def execEncEmitFinal (s : State) : Answer :=
  if s.encPhase = .run then
    if s.encMore then .refused (.notSelected "ENC.EMIT.FINAL")
    else .next ((s.pushSink s.encByte).completeOk .enc)
  else .next s

/-- ENC.EMIT.CONT (R93): the sink takes BYTE with MORE = 1, and ENC_V is loaded with NEXT, decrement-on-continue. -/
def execEncEmitCont (s : State) : Answer :=
  if s.encPhase = .run then
    if s.encMore then .next (s.pushSink s.encByte).loadNext
    else .refused (.notSelected "ENC.EMIT.CONT")
  else .next s

/-- ENC.ABORT (R94): the sink failed; error completion `IoFailure(info)`. -/
def execEncAbort (info : Nat) (s : State) : Answer :=
  if s.encPhase = .run then
    match ioValue s.cfg.io info with
    | some v => .next (s.raise .enc (.ioFailure v))
    | none => .refused .infoTooWide
  else .next s

end Sys2Proof.Machine
end

