-- ==== Sys2Proof/Machine/Reset.lean ====
section
/-! DEFINITION. RESET (spec/70_reset_and_hazards.md R200). -/

namespace Sys2Proof.Machine

/-- RESET: phases IDLE, statuses 0; the five registers R200 writes `unspecified` take free values
(notes/assumptions/3.md); the streams are not touched. -/
def execReset (s : State) : Answer :=
  .next { s with
    encPhase := .idle
    encStatus := .ok
    encV := Config.freeValue s.draws .encV s.cfg.wEnc
    encInfo := ioClip s.cfg.io (Config.freeNumber s.draws .encInfo)
    decPhase := .idle
    decStatus := .ok
    decResult := Config.freeValue s.draws .decResult s.cfg.wDec
    decShift := Config.freeValue s.draws .decShift s.cfg.sw
    decInfo := ioClip s.cfg.io (Config.freeNumber s.draws .decInfo)
    draws := s.draws + 1 }

end Sys2Proof.Machine
end

