-- ==== Sys2Proof/Machine/Dispatch.lean ====
section
/-! DEFINITION. One arm per operation. -/

namespace Sys2Proof.Machine

def exec (i : Instr) (s : State) : Host.Outcome State Fault Refusal :=
  match i with
  | .reset => Sys2Proof.Machine.execReset s
  | .encStart x => Sys2Proof.Machine.execEncStart x s
  | .encEmitFinal => Sys2Proof.Machine.execEncEmitFinal s
  | .encEmitCont => Sys2Proof.Machine.execEncEmitCont s
  | .encAbort info => Sys2Proof.Machine.execEncAbort info s
  | .decStart => Sys2Proof.Machine.execDecStart s
  | .decByteFinal g => Sys2Proof.Machine.execDecByteFinal g s
  | .decByteCont g => Sys2Proof.Machine.execDecByteCont g s
  | .decOverflow b => Sys2Proof.Machine.execDecOverflow b s
  | .decEof => Sys2Proof.Machine.execDecEof s
  | .decFail info => Sys2Proof.Machine.execDecFail info s

end Sys2Proof.Machine
end

