-- ==== Sys2Proof/Machine/Deliver.lean ====
section
/-! DEFINITION. A completed transfer meets the block (spec/30_encoding.md R80): the operation it selects runs, or
nothing happens. -/

namespace Sys2Proof.Machine

/-- Deliver one transfer: the operation R80 selects is executed; an event for which no row's condition holds causes no
step and changes nothing (R80, R96, R118). -/
def deliver (t : Transfer) (s : State) : Answer :=
  match decode (s.signals t) t with
  | .op i => exec i s
  | .noStep _ => .next s

/-- Deliver transfers one after another. -/
def deliverAll : List Transfer → State → Answer
  | [], s => .next s
  | t :: ts, s => andThen (deliver t s) (deliverAll ts)

/-- Put a transfer first among the coming ones. -/
def State.offer (s : State) (t : Transfer) : State := { s with inputs := t :: s.inputs }

/-- The unit a response word answers, put in phase RUN with its working registers at 0, so that a bare table word has
an operation to select (notes/assumptions/11.md). -/
def State.prepareFor (s : State) : Transfer → State
  | .rst => s
  | .encCmd _ => s
  | .snkRsp _ _ => { s with encPhase := .run, encV := 0 }
  | .decCmd => s
  | .srcRsp _ _ => { s with decPhase := .run, decResult := 0, decShift := 0 }

end Sys2Proof.Machine
end

