-- ==== Sys2Proof/Machine/Step.lean ====
section
/-! DEFINITION. One step of the block (spec/00_scope.md R7): the environment's next transfer is made. -/

namespace Sys2Proof.Machine

/-- One step: the next transfer of `inputs` is taken and delivered. With none left the block waits and holds its
registers (spec/40_encoder.md R95, spec/41_decoder.md R117). -/
def step (s : State) : Host.Outcome State Fault Refusal :=
  match s.inputs with
  | [] => .next s
  | t :: rest => deliver t { s with inputs := rest }

/-- `s` with the table word's transfer as the next one and the unit it answers in phase RUN, prepared as
`tableSignals` says (notes/assumptions/11.md): the next `step` runs exactly the operation `decodeTableWord` reads. -/
def State.withFetchWord (s : State) (nbits w : Nat) : State :=
  match tableTransfer nbits w with
  | some t => (s.prepareFor t).offer t
  | none => s

end Sys2Proof.Machine
end

