-- ==== Sys2Proof/Machine/Script.lean ====
section
/-! DEFINITION. The script notation (spec/30_encoding.md R81): one event of the environment per line, read from text,
and a script as the environment's coming transfers. It is a spelling and adds no behaviour. An `info` is an identifier
whose failure description the reader of the script fixes (notes/assumptions/19.md). -/

namespace Sys2Proof.Machine

/-- The sixteen digits of a hexadecimal number, each at the place that is its value; the first ten are the decimal
digits. R81 does not name the digits; DESIGN CHOICE: the six letters may be of either case (`digitsFrom`,
notes/assumptions/19.md). -/
def digitNames : List Char := "0123456789ABCDEF".toList

/-- Digits in a base, after those that gave `n`: a digit is worth its place among the first `base` of `digitNames`. -/
def digitsFrom (base : Nat) : List Char → Nat → Option Nat
  | [], n => some n
  | c :: cs, n => ((digitNames.take base).idxOf? c.toUpper).bind (fun d => digitsFrom base cs (n * base + d))

/-- `value ::= decimal | "0x" hex` (R81). -/
def scriptValue : List Char → Option Nat
  | '0' :: 'x' :: c :: cs => digitsFrom 16 (c :: cs) 0
  | c :: cs => digitsFrom 10 (c :: cs) 0
  | [] => none

/-- `byte ::= "0x" hex hex` (R81). -/
def scriptByte : List Char → Option Byte
  | ['0', 'x', h, l] => (digitsFrom 16 [h, l] 0).map (BitVec.ofNat 8)
  | _ => none

/-- `info ::= identifier` (R81). R81 does not say which strings are identifiers; DESIGN CHOICE: an ASCII letter first, then
ASCII letters, digits and underscores (notes/assumptions/19.md). -/
def isIdentifier : List Char → Bool
  | [] => false
  | c :: cs => c.isAlpha && cs.all (fun d => d.isAlphanum || d == '_')

/-- The words of a line: what stands between spaces, up to a `;`, which begins a comment (R81). That spaces, one or more,
set words apart is a DESIGN CHOICE (notes/assumptions/19.md). `word` is the word under way,
its characters in reverse. -/
def scriptWords : List Char → List Char → List (List Char)
  | word, [] => if word.isEmpty then [] else [word.reverse]
  | word, c :: cs =>
    if c = ';' then (if word.isEmpty then [] else [word.reverse])
    else if c = ' ' then (if word.isEmpty then scriptWords [] cs else word.reverse :: scriptWords [] cs)
    else scriptWords (c :: word) cs

/-- The event a line's words spell, if they spell one (R81); `info` gives each identifier its description. -/
def wordsEvent (info : List Char → Nat) : List (List Char) → Option Event
  | [op] =>
    if op = "RESET".toList then some .reset
    else if op = "SNK.ACCEPT".toList then some .snkAccept
    else if op = "DEC.START".toList then some .decStart
    else if op = "SRC.END".toList then some .srcEnd
    else none
  | [op, arg] =>
    if op = "ENC.START".toList then (scriptValue arg).map .encStart
    else if op = "SRC.BYTE".toList then (scriptByte arg).map .srcByte
    else if op = "SNK.FAIL".toList then (if isIdentifier arg then some (.snkFail (info arg)) else none)
    else if op = "SRC.FAIL".toList then (if isIdentifier arg then some (.srcFail (info arg)) else none)
    else none
  | _ => none

/-- The event of one line (R81). -/
def lineEvent (info : List Char → Nat) (line : String) : Option Event :=
  wordsEvent info (scriptWords [] line.toList)

/-- The events of a script, one per line, where every line spells one. -/
def scriptEvents (info : List Char → Nat) : List String → Option (List Event)
  | [] => some []
  | line :: rest =>
    match lineEvent info line, scriptEvents info rest with
    | some e, some es => some (e :: es)
    | _, _ => none

/-- The state with a script's events as the environment's coming transfers. -/
def State.withScript (s : State) (es : List Event) : State := { s with inputs := es.map Event.transfer }

end Sys2Proof.Machine
end

