-- ==== Sys2Proof/Machine/Codec.lean ====
section
/-! DEFINITION. The pure functions of the code over the natural numbers (spec/42_functions_and_laws.md R142 to R144,
R149, spec/30_encoding.md R71, R73), independent of any unit. The units are tied to them by R99 and R122. -/

namespace Sys2Proof.Machine

/-- The recursion of `enc` (R142) on fuel: each pass makes the value smaller, so `v + 1` passes are enough. -/
def encLoop : Nat → Nat → List Byte
  | 0, _ => []
  | fuel + 1, v =>
    if v < 128 then [BitVec.ofNat 8 v]
    else BitVec.ofNat 8 (v % 128 + 128) :: encLoop fuel (v / 128 - 1)

/-- `enc`, from natural numbers to byte sequences (R142). -/
def enc (v : Nat) : List Byte := encLoop (v + 1) v

/-- The outcomes of the decoding functions (R143, R144): a value with the number of bytes consumed, a source that ended
early, or an overflow with the number of bytes consumed. -/
inductive DecOutcome where
  | ok (v n : Nat)
  | trunc
  | ovf (n : Nat)
deriving DecidableEq, Repr

/-- `go` of R143. -/
def decInfLoop : List Byte → Nat → Nat → Nat → DecOutcome
  | [], _, _, _ => .trunc
  | b :: t, r, sh, n =>
    if b.toNat < 128 then .ok (r + b.toNat <<< sh) (n + 1)
    else decInfLoop t (r + b.toNat <<< sh) (sh + 7) (n + 1)

/-- `dec_inf`, the decoder with no width limit (R143). -/
def decInf (bs : List Byte) : DecOutcome := decInfLoop bs 0 0 0

/-- `goW` of R144; the overflow test comes first. -/
def decWLoop (w : Nat) : List Byte → Nat → Nat → Nat → DecOutcome
  | [], _, _, _ => .trunc
  | b :: t, r, sh, n =>
    if 2 ^ w ≤ r + b.toNat <<< sh then .ovf (n + 1)
    else if b.toNat < 128 then .ok (r + b.toNat <<< sh) (n + 1)
    else decWLoop w t (r + b.toNat <<< sh) (sh + 7) (n + 1)

/-- `dec_W`, the decoder of width `w` (R144). -/
def decW (w : Nat) (bs : List Byte) : DecOutcome := decWLoop w bs 0 0 0

/-- `S_n = 128 + 128^2 + ... + 128^n`, the number of values that encode in at most `n` bytes (R149). -/
def sumS : Nat → Nat
  | 0 => 0
  | n + 1 => sumS n + 128 ^ (n + 1)

/-- The value of bytes whose first stands at bit `sh`: the sum of the WHOLE bytes, each shifted by its place (R73). -/
def assembleAt : Nat → List Byte → Nat
  | _, [] => 0
  | sh, b :: t => b.toNat <<< sh + assembleAt (sh + 7) t

/-- `v = b_0 + b_1 * 2^7 + b_2 * 2^14 + ...` (R73). -/
def assemble (bs : List Byte) : Nat := assembleAt 0 bs

/-- A continuation byte, 0x80 to 0xFF (R70). -/
def isCont (b : Byte) : Bool := decide (128 ≤ b.toNat)

/-- The shape `cont* final` of one encoding (R71). -/
def isEncoding : List Byte → Bool
  | [] => false
  | b :: t => if isCont b then isEncoding t else t.isEmpty

end Sys2Proof.Machine
end

