-- ==== Sys2Proof/Machine/Calls.lean ====
section
/-! DEFINITION. The pseudo-operations ENCODE and DECODE (spec/30_encoding.md R82): whole calls as sequences of events,
with a sink that accepts every offer and with the list source of spec/20_memory.md R52. They add no behaviour. -/

namespace Sys2Proof.Machine

/-- `SNK.ACCEPT` repeated while ENC_PHASE = RUN, at most `fuel` times. -/
def acceptWhileRunning : Nat → State → Answer
  | 0, s => .next s
  | fuel + 1, s =>
    if s.encPhase = .run then andThen (deliver Event.snkAccept.transfer s) (acceptWhileRunning fuel) else .next s

/-- `ENCODE x` (R82); an encode takes at most NMAX answers (spec/40_encoder.md R97, R100). -/
def encodeCall (x : Nat) (s : State) : Answer :=
  andThen (deliver (Event.encStart x).transfer s) (acceptWhileRunning (nmax s.cfg.wEnc))

/-- The answers of a list source holding `bs` (R52), while DEC_PHASE = RUN: its bytes in order, then `End`. -/
def answerFromList : List Byte → State → Answer
  | [], s => if s.decPhase = .run then deliver Event.srcEnd.transfer s else .next s
  | b :: bs, s =>
    if s.decPhase = .run then andThen (deliver (Event.srcByte b).transfer s) (answerFromList bs) else .next s

/-- `DECODE` from a source stream `bs` (R82). -/
def decodeCall (bs : List Byte) (s : State) : Answer :=
  andThen (deliver Event.decStart.transfer s) (answerFromList bs)

/-- `ENCODE` of each value in turn. -/
def encodeAll : List Nat → State → Answer
  | [], s => .next s
  | x :: xs, s => andThen (encodeCall x s) (encodeAll xs)

end Sys2Proof.Machine
end

