-- ==== Sys2Proof/Machine/Outputs.lean ====
section
/-! DEFINITION. What the ports show (spec/10_state.md R34). Outside its "meaningful when" condition a port has no
value: `none`, so that no claim can rest on it. -/

namespace Sys2Proof.Machine

/-- The outputs of R34, at their widths. -/
structure Outputs (c : Config) where
  encReady : Bool
  encDone : Bool
  encStatus : Option (BitVec 2)
  encInfo : Option c.io.Info
  snkValid : Bool
  snkData : Option Byte
  decReady : Bool
  decDone : Bool
  decStatus : Option (BitVec 2)
  decInfo : Option c.io.Info
  decValue : Option (BitVec c.wDec)
  decCount : Option (BitVec c.cw)
  srcReq : Bool
deriving DecidableEq, Repr

/-- `enc_ready`. -/
def State.encReady (s : State) : Bool := s.encPhase != .run

/-- `enc_done`. -/
def State.encDone (s : State) : Bool := s.encPhase == .done

/-- `enc_status`, meaningful when `enc_done`. -/
def State.encStatusOut (s : State) : Option (BitVec 2) := if s.encDone then some s.encStatus.code else none

/-- `enc_info`, meaningful when `enc_done` and the status is 3. -/
def State.encInfoOut (s : State) : Option s.cfg.io.Info :=
  if s.encDone && s.encStatus == .ioFailure then some s.encInfo else none

/-- `snk_valid`. -/
def State.snkValid (s : State) : Bool := s.encPhase == .run

/-- `snk_data`, meaningful when `snk_valid`: BYTE. -/
def State.snkData (s : State) : Option Byte := if s.snkValid then some s.encByte else none

/-- `dec_ready`. -/
def State.decReady (s : State) : Bool := s.decPhase != .run

/-- `dec_done`. -/
def State.decDone (s : State) : Bool := s.decPhase == .done

/-- `dec_status`, meaningful when `dec_done`. -/
def State.decStatusOut (s : State) : Option (BitVec 2) := if s.decDone then some s.decStatus.code else none

/-- `dec_info`, meaningful when `dec_done` and the status is 3. -/
def State.decInfoOut (s : State) : Option s.cfg.io.Info :=
  if s.decDone && s.decStatus == .ioFailure then some s.decInfo else none

/-- `dec_value`, meaningful when `dec_done` and the status is 0. -/
def State.decValue (s : State) : Option (BitVec s.cfg.wDec) :=
  if s.decDone && s.decStatus == .ok then some s.decResult else none

/-- `dec_count = DEC_SHIFT / 7 + 1`, meaningful as `dec_value` is (spec/41_decoder.md R121). -/
def State.decCount (s : State) : Option (BitVec s.cfg.cw) :=
  if s.decDone && s.decStatus == .ok then some (BitVec.ofNat s.cfg.cw (s.decShift.toNat / 7 + 1)) else none

/-- `src_req`. -/
def State.srcReq (s : State) : Bool := s.decPhase == .run

/-- All outputs of a state. -/
def State.outputs (s : State) : Outputs s.cfg where
  encReady := s.encReady
  encDone := s.encDone
  encStatus := s.encStatusOut
  encInfo := s.encInfoOut
  snkValid := s.snkValid
  snkData := s.snkData
  decReady := s.decReady
  decDone := s.decDone
  decStatus := s.decStatusOut
  decInfo := s.decInfoOut
  decValue := s.decValue
  decCount := s.decCount
  srcReq := s.srcReq

end Sys2Proof.Machine
end

