-- ==== Sys2Proof/Machine/IoInfo.lean ====
section
/-! DEFINITION. The type parameter IoInfo of spec/00_scope.md R11: the environment's own type of failure descriptions,
whichever it is, on the ports that carry descriptions. -/

namespace Sys2Proof.Machine

/-- How the values of a type `IoInfo` are numbered in an instance whose parameter is `t` (R11; notes/assumptions/8.md).
Every value has a number that is a value of `t`, and the number names it. -/
structure Coding (IoInfo : Type) (t : IoType) where
  code : IoInfo → Nat
  name : Nat → IoInfo
  code_has : ∀ x, t.has (code x) = true
  name_code : ∀ x, name (code x) = x

/-- The sink's answer `Fail(x)`, with `x` on `snk_info` (spec/20_memory.md R51). -/
def sinkFails {IoInfo : Type} {t : IoType} (k : Coding IoInfo t) (x : IoInfo) : Transfer :=
  (Event.snkFail (k.code x)).transfer

/-- The source's answer `Fail(x)`, with `x` on `src_info` (spec/20_memory.md R52). -/
def sourceFails {IoInfo : Type} {t : IoType} (k : Coding IoInfo t) (x : IoInfo) : Transfer :=
  (Event.srcFail (k.code x)).transfer

/-- `enc_info` as a value of IoInfo (spec/10_state.md R34). -/
def State.encInfoAs {IoInfo : Type} {t : IoType} (k : Coding IoInfo t) (s : State) : Option IoInfo :=
  s.encInfoOut.map (fun i => k.name i.val)

/-- `dec_info` as a value of IoInfo (R34). -/
def State.decInfoAs {IoInfo : Type} {t : IoType} (k : Coding IoInfo t) (s : State) : Option IoInfo :=
  s.decInfoOut.map (fun i => k.name i.val)

end Sys2Proof.Machine
end

