-- ==== Sys2Proof/Machine/Pins.lean ====
section
/-! DEFINITION. The signal-level realisation of the ports (spec/10_state.md R36 to R38): the input wires at one rising
clock edge, the transfers they complete, and the edge's effect as the steps of those transfers. It adds no behaviour
(spec/00_scope.md R7). -/

namespace Sys2Proof.Machine

/-- The input wires at a rising edge (R36, R37, R38). -/
structure Pins where
  rst : Bool
  encCmdValid : Bool
  encCmdValue : Nat
  snkReady : Bool
  snkFail : Bool
  snkInfo : Nat
  decCmdValid : Bool
  srcValid : Bool
  srcData : Byte
  srcEof : Bool
  srcFail : Bool
  srcInfo : Nat
deriving DecidableEq, Repr

/-- The transfer the encoder's ports complete at an edge with `rst = 0` (R37): a command where the unit is ready, else
the sink's answer where a byte is on offer, else none. -/
def Pins.encTransfer (p : Pins) (s : State) : Option Transfer :=
  if p.encCmdValid && s.encReady then some (.encCmd p.encCmdValue)
  else if s.snkValid && p.snkReady then some (.snkRsp (BitVec.ofBool p.snkFail) p.snkInfo)
  else none

/-- The transfer the decoder's ports complete at an edge with `rst = 0` (R38). -/
def Pins.decTransfer (p : Pins) (s : State) : Option Transfer :=
  if p.decCmdValid && s.decReady then some .decCmd
  else if s.srcReq && p.srcValid then some (.srcRsp (srcWord p.srcFail p.srcEof p.srcData) p.srcInfo)
  else none

/-- The transfers completed at an edge: `rst` overrides every other, and each unit has at most one (R36). -/
def Pins.transfers (p : Pins) (s : State) : List Transfer :=
  if p.rst then [.rst] else (p.encTransfer s).toList ++ (p.decTransfer s).toList

/-- One rising edge: the transfers are those of the state before the edge; the encoder's is made first, which no result
depends on (R65; notes/assumptions/13.md). -/
def edge (p : Pins) (s : State) : Answer := deliverAll (p.transfers s) s

end Sys2Proof.Machine
end

