-- ==== Sys2Proof/Machine/Rest.lean ====
section
/-! DEFINITION. Rest and the end of a run (spec/70_reset_and_hazards.md R215), where the host's offers are the coming
transfers and, at the signal level, the command wires. -/

namespace Sys2Proof.Machine

/-- A unit is at rest in IDLE or DONE (R215). -/
def Phase.atRest : Phase → Bool
  | .idle => true
  | .run => false
  | .done => true

/-- Every unit is at rest. -/
def State.atRest (s : State) : Bool := s.encPhase.atRest && s.decPhase.atRest

/-- A transfer on a command port, `enc_cmd` or `dec_cmd` (spec/30_encoding.md R79). RESET is none. -/
def isCommand : Transfer → Bool
  | .rst => false
  | .encCmd _ => true
  | .snkRsp _ _ => false
  | .decCmd => true
  | .srcRsp _ _ => false

/-- The host offers a further command. -/
def State.commandOffered (s : State) : Bool := s.inputs.any isCommand

/-- The run has ended: every unit is at rest and the host offers no further command (R215). It says nothing of the
streams being at an integer boundary. -/
def State.runEnded (s : State) : Bool := s.atRest && !s.commandOffered

/-- The run has stopped with a unit in RUN and nothing left for the environment to send: it has not ended, "it is stuck on
the environment" (R215). -/
def State.stuckOnEnvironment (s : State) : Bool := s.inputs.isEmpty && !s.atRest

/-- The end of a run at the signal level: every unit at rest and neither command wire raised (R37, R38, R215). -/
def Pins.runEnded (p : Pins) (s : State) : Bool := s.atRest && !p.encCmdValid && !p.decCmdValid

end Sys2Proof.Machine
end

