-- ==== Sys2Proof/Safety.lean ====
section
/-! DEFINITION. The terms statements are made in: what can be presented at a port, what a unit keeps, the invariants of
reachable states (spec/10_state.md R33, spec/41_decoder.md R119), and what two runs share that differ in their failure
descriptions only (spec/00_scope.md R11). -/

namespace Sys2Proof.Machine

/-- The event can cross its port: a command value is W_ENC bits, a failure description is a value of IoInfo (spec/00_scope.md
R8, R11). -/
def eventFits (c : Config) : Event → Bool
  | .reset => true
  | .encStart x => decide (x < 2 ^ c.wEnc)
  | .snkAccept => true
  | .snkFail info => c.io.has info
  | .decStart => true
  | .srcByte _ => true
  | .srcEnd => true
  | .srcFail info => c.io.has info

/-- The transfer carries an event that can cross its port. -/
def fitsPort (c : Config) (t : Transfer) : Bool := eventFits c t.event

/-- Everything of the encoder, and the sink stream, is the same in `t` as in `s`. -/
structure EncKept (s t : State) : Prop where
  phase : t.encPhase = s.encPhase
  value : t.encV.toNat = s.encV.toNat
  status : t.encStatus = s.encStatus
  info : t.encInfo.val = s.encInfo.val
  sink : t.sinkStream = s.sinkStream

/-- Everything of the decoder, and the consumed bytes, is the same in `t` as in `s`. -/
structure DecKept (s t : State) : Prop where
  phase : t.decPhase = s.decPhase
  result : t.decResult.toNat = s.decResult.toNat
  shift : t.decShift.toNat = s.decShift.toNat
  status : t.decStatus = s.decStatus
  info : t.decInfo.val = s.decInfo.val
  taken : t.sourceTaken = s.sourceTaken

/-- The instance and the environment's coming transfers are the same. -/
structure RestKept (s t : State) : Prop where
  cfg : t.cfg = s.cfg
  inputs : t.inputs = s.inputs

/-- The encoder's ports show the same in `t` as in `s` (spec/10_state.md R34). -/
structure SameEncOutputs (s t : State) : Prop where
  ready : t.encReady = s.encReady
  done : t.encDone = s.encDone
  status : t.encStatusOut = s.encStatusOut
  info : t.encInfoOut.map Subtype.val = s.encInfoOut.map Subtype.val
  valid : t.snkValid = s.snkValid
  data : t.snkData = s.snkData

/-- The decoder's ports show the same in `t` as in `s` (R34). -/
structure SameDecOutputs (s t : State) : Prop where
  ready : t.decReady = s.decReady
  done : t.decDone = s.decDone
  status : t.decStatusOut = s.decStatusOut
  info : t.decInfoOut.map Subtype.val = s.decInfoOut.map Subtype.val
  value : t.decValue.map BitVec.toNat = s.decValue.map BitVec.toNat
  count : t.decCount.map BitVec.toNat = s.decCount.map BitVec.toNat
  req : t.srcReq = s.srcReq

/-- The last `n` elements of a list. -/
def lastN (n : Nat) (bs : List Byte) : List Byte := bs.drop (bs.length - n)

/-- What holds of the decoder while it runs (R33, R119): after `k` continuation bytes, DEC_SHIFT is `7 k`, the last `k`
bytes consumed are those, and DEC_RESULT is exactly their value. (DEC_RESULT < 2^W by its type.) -/
def State.DecRunInv (s : State) : Prop :=
  s.decPhase = .run →
    ∃ k, s.decShift.toNat = 7 * k ∧ k ≤ s.sourceTaken.length ∧
      (lastN k s.sourceTaken).all isCont = true ∧
      s.decResult.toNat = assemble (lastN k s.sourceTaken)

/-- What holds of the decoder after a decode that completed without error (R33, R121): the last DEC_SHIFT / 7 + 1 bytes
consumed are one encoding and DEC_RESULT is its value. -/
def State.DecDoneInv (s : State) : Prop :=
  s.decPhase = .done → s.decStatus = .ok →
    ∃ k, s.decShift.toNat = 7 * k ∧ k + 1 ≤ s.sourceTaken.length ∧
      isEncoding (lastN (k + 1) s.sourceTaken) = true ∧
      s.decResult.toNat = assemble (lastN (k + 1) s.sourceTaken) ∧
      s.decShift.toNat < s.cfg.wDec

/-- ENC_STATUS is 0 or 3 (R33). -/
def State.EncStatusInv (s : State) : Prop := s.encStatus = .ok ∨ s.encStatus = .ioFailure

/-- The invariant of reachable states. -/
structure State.Inv (s : State) : Prop where
  encStatus : s.EncStatusInv
  decRun : s.DecRunInv
  decDone : s.DecDoneInv

/-- The two operations are the same but for their failure descriptions, which `rel` relates. -/
def sameButInfo (rel : Nat → Nat → Prop) (i i' : Instr) : Prop :=
  match i with
  | .reset => i' = .reset
  | .encStart x => i' = .encStart x
  | .encEmitFinal => i' = .encEmitFinal
  | .encEmitCont => i' = .encEmitCont
  | .encAbort a => ∃ a', i' = .encAbort a' ∧ rel a a'
  | .decStart => i' = .decStart
  | .decByteFinal g => i' = .decByteFinal g
  | .decByteCont g => i' = .decByteCont g
  | .decOverflow b => i' = .decOverflow b
  | .decEof => i' = .decEof
  | .decFail a => ∃ a', i' = .decFail a' ∧ rel a a'

/-- The two states are the same but for the type of failure descriptions and the descriptions themselves, and `rel`
relates the descriptions that the ports show. (The coming transfers are not compared.) -/
structure SameButInfo (rel : Nat → Nat → Prop) (s s' : State) : Prop where
  wEnc : s.cfg.wEnc = s'.cfg.wEnc
  wDec : s.cfg.wDec = s'.cfg.wDec
  encPhase : s.encPhase = s'.encPhase
  encV : s.encV.toNat = s'.encV.toNat
  encStatus : s.encStatus = s'.encStatus
  encInfo : s.encPhase = .done → s.encStatus = .ioFailure → rel s.encInfo.val s'.encInfo.val
  decPhase : s.decPhase = s'.decPhase
  decResult : s.decResult.toNat = s'.decResult.toNat
  decShift : s.decShift.toNat = s'.decShift.toNat
  decStatus : s.decStatus = s'.decStatus
  decInfo : s.decPhase = .done → s.decStatus = .ioFailure → rel s.decInfo.val s'.decInfo.val
  sinkStream : s.sinkStream = s'.sinkStream
  sourceTaken : s.sourceTaken = s'.sourceTaken
  draws : s.draws = s'.draws

end Sys2Proof.Machine
end

