-- ==== Sys2Proof/Certificates/Slice0/Obligations.lean ====
section
/-! DEFINITION. The statements for the provers. Each says in its docstring which rule of spec/ it formalises, or which
sections it is derived from. Registers are read as numbers (`toNat`), the widths are those of the state's instance
`cfg`, so every statement is for every W_ENC, W_DEC >= 1 and every type of failure descriptions. -/

open Sys2Proof Sys2Proof.Machine

/-- RESET (spec/70_reset_and_hazards.md R200) completes in every state, whichever phases it finds: phases IDLE, statuses
0, the streams untouched; a running operation ends with no completion (no outcome is shown), and a unit in IDLE shows
nothing different; the `rst` event selects it always, and an edge with `rst` is RESET whatever else is raised. -/
def Obligations.ResetRuns : Prop :=
  (∀ s : State, ∃ t, exec .reset s = .next t ∧
    t.encPhase = .idle ∧ t.encStatus = .ok ∧ t.decPhase = .idle ∧ t.decStatus = .ok ∧
    t.sinkStream = s.sinkStream ∧ t.sourceTaken = s.sourceTaken ∧ RestKept s t ∧
    t.encStatusOut = none ∧ t.encInfoOut = none ∧
    t.decStatusOut = none ∧ t.decInfoOut = none ∧ t.decValue = none ∧ t.decCount = none ∧
    (s.encPhase = .idle → SameEncOutputs s t) ∧ (s.decPhase = .idle → SameDecOutputs s t)) ∧
  (∀ s : State, deliver .rst s = exec .reset s) ∧
  (∀ (p : Pins) (s : State), p.rst = true → edge p s = exec .reset s)

/-- ENC.START (spec/40_encoder.md R91): in IDLE and in DONE, for every W-bit value, the value is loaded and the unit runs;
status and info registers keep their values and stop being shown; the first byte is on offer; nothing else changes.
A transfer on `enc_cmd` does exactly this. -/
def Obligations.EncStartRuns : Prop :=
  ∀ (s : State) (x : Nat), s.encPhase = .idle ∨ s.encPhase = .done → x < 2 ^ s.cfg.wEnc →
    ∃ t, exec (.encStart x) s = .next t ∧ deliver (.encCmd x) s = .next t ∧
      t.encV.toNat = x ∧ t.encPhase = .run ∧ t.encStatus = s.encStatus ∧ t.encInfo.val = s.encInfo.val ∧
      t.encStatusOut = none ∧ t.encInfoOut = none ∧
      t.snkValid = true ∧
      t.snkData.map BitVec.toNat = some (if x < 128 then x else x % 128 + 128) ∧
      t.sinkStream = s.sinkStream ∧ DecKept s t ∧ RestKept s t

/-- ENC.EMIT.FINAL (R92): in RUN with no bits above the low 7, that group goes to the sink as the final byte and the
encode completes with status 0; ENC_V is not written and nothing else changes.
The sink's answer `0` (R78) does exactly this. -/
def Obligations.EncEmitFinalRuns : Prop :=
  ∀ s : State, s.encPhase = .run → s.encV.toNat / 128 = 0 →
    ∃ t, exec .encEmitFinal s = .next t ∧ (∀ info, deliver (.snkRsp 0b0#1 info) s = .next t) ∧
      t.sinkStream = s.sinkStream ++ [BitVec.ofNat 8 (s.encV.toNat % 128)] ∧
      t.encPhase = .done ∧ t.encStatus = .ok ∧
      t.encV.toNat = s.encV.toNat ∧ t.encInfo.val = s.encInfo.val ∧ DecKept s t ∧ RestKept s t

/-- ENC.EMIT.CONT (R93): in RUN with bits above the low 7, the group with bit 7 set goes to the sink and ENC_V becomes
`(ENC_V >> 7) - 1`, below 2^(W-7); the unit keeps running and nothing else changes.
The sink's answer `0` (R78) does exactly this. -/
def Obligations.EncEmitContRuns : Prop :=
  ∀ s : State, s.encPhase = .run → s.encV.toNat / 128 ≠ 0 →
    ∃ t, exec .encEmitCont s = .next t ∧ (∀ info, deliver (.snkRsp 0b0#1 info) s = .next t) ∧
      t.sinkStream = s.sinkStream ++ [BitVec.ofNat 8 (s.encV.toNat % 128) ||| 0x80#8] ∧
      1 ≤ s.encV.toNat / 128 ∧ t.encV.toNat = s.encV.toNat / 128 - 1 ∧ t.encV.toNat < 2 ^ (s.cfg.wEnc - 7) ∧
      t.encPhase = .run ∧ t.encStatus = s.encStatus ∧ t.encInfo.val = s.encInfo.val ∧
      DecKept s t ∧ RestKept s t

/-- ENC.ABORT (R94): in RUN, whatever MORE is, the encode completes with status 3 and the sink's description; neither
the sink stream nor ENC_V nor anything else changes.
No further byte is offered. The sink's answer `1` (R78) does exactly this. -/
def Obligations.EncAbortRuns : Prop :=
  ∀ (s : State) (info : Nat), s.encPhase = .run → s.cfg.io.has info = true →
    ∃ t, exec (.encAbort info) s = .next t ∧ deliver (.snkRsp 0b1#1 info) s = .next t ∧
      t.snkValid = false ∧ t.encPhase = .done ∧ t.encStatus = .ioFailure ∧ t.encInfo.val = info ∧
      t.encStatusOut = some 3 ∧ t.encInfoOut.map Subtype.val = some info ∧
      t.encV.toNat = s.encV.toNat ∧ t.sinkStream = s.sinkStream ∧ DecKept s t ∧ RestKept s t

/-- DEC.START (spec/41_decoder.md R111): in IDLE and in DONE the result and the shift are cleared and the unit runs; status
and info keep their values and stop being shown, as do value and count; a byte is requested; nothing else changes.
A transfer on `dec_cmd` does exactly this. -/
def Obligations.DecStartRuns : Prop :=
  ∀ s : State, s.decPhase = .idle ∨ s.decPhase = .done →
    ∃ t, exec .decStart s = .next t ∧ deliver .decCmd s = .next t ∧
      t.decResult.toNat = 0 ∧ t.decShift.toNat = 0 ∧ t.decPhase = .run ∧
      t.decStatus = s.decStatus ∧ t.decInfo.val = s.decInfo.val ∧
      t.decStatusOut = none ∧ t.decInfoOut = none ∧ t.decValue = none ∧ t.decCount = none ∧ t.srcReq = true ∧
      t.sourceTaken = s.sourceTaken ∧ EncKept s t ∧ RestKept s t

/-- DEC.BYTE.FINAL (R112): in RUN, a byte below 0x80 whose sum fits is added at DEC_SHIFT, the decode completes with status
0 and shows the sum; DEC_SHIFT is not written; one byte is consumed; nothing else changes.
The source word `000ggggggg` (R78) does exactly this. -/
def Obligations.DecByteFinalRuns : Prop :=
  ∀ (s : State) (g : Payload), s.decPhase = .run →
    s.decResult.toNat + g.toNat * 2 ^ s.decShift.toNat < 2 ^ s.cfg.wDec →
    ∃ t, exec (.decByteFinal g) s = .next t ∧ (∀ info, deliver (.srcRsp (0b000#3 ++ g) info) s = .next t) ∧
      t.decResult.toNat = s.decResult.toNat + g.toNat * 2 ^ s.decShift.toNat ∧
      t.decPhase = .done ∧ t.decStatus = .ok ∧
      t.decValue.map BitVec.toNat = some (s.decResult.toNat + g.toNat * 2 ^ s.decShift.toNat) ∧
      t.decShift.toNat = s.decShift.toNat ∧ t.decInfo.val = s.decInfo.val ∧
      t.sourceTaken = s.sourceTaken ++ [BitVec.ofNat 8 g.toNat] ∧ EncKept s t ∧ RestKept s t

/-- DEC.BYTE.CONT (R113): in RUN, a byte of 0x80 or more whose sum fits is added WHOLE at DEC_SHIFT, which is its payload
at DEC_SHIFT and 1 at DEC_SHIFT + 7; the shift moves on by 7, and where it is a multiple of 7 (as in every reachable state,
R33) it stays at most SHIFT_MAX, so it does not wrap; one byte is consumed; nothing else changes. Of a shift that is no
multiple of 7 and would leave its register nothing is said (notes/assumptions/18.md).
The source word `001ggggggg` (R78) does exactly this. -/
def Obligations.DecByteContRuns : Prop :=
  ∀ (s : State) (g : Payload), s.decPhase = .run →
    s.decResult.toNat + (g.toNat + 128) * 2 ^ s.decShift.toNat < 2 ^ s.cfg.wDec →
    ∃ t, exec (.decByteCont g) s = .next t ∧ (∀ info, deliver (.srcRsp (0b001#3 ++ g) info) s = .next t) ∧
      t.decResult.toNat =
        s.decResult.toNat + g.toNat * 2 ^ s.decShift.toNat + 2 ^ (s.decShift.toNat + 7) ∧
      (s.decShift.toNat + 7 < 2 ^ s.cfg.sw → t.decShift.toNat = s.decShift.toNat + 7) ∧
      (s.decShift.toNat % 7 = 0 →
        t.decShift.toNat = s.decShift.toNat + 7 ∧ t.decShift.toNat ≤ shiftMax s.cfg.wDec) ∧
      t.decPhase = .run ∧ t.decStatus = s.decStatus ∧ t.decInfo.val = s.decInfo.val ∧
      t.sourceTaken = s.sourceTaken ++ [BitVec.ofNat 8 (g.toNat + 128)] ∧ EncKept s t ∧ RestKept s t

/-- DEC.OVERFLOW (R114): in RUN, a byte of either kind whose exact sum reaches 2^W is consumed and ends the decode with
status 2; no value and no count is shown; nothing else changes (DEC_RESULT and DEC_SHIFT are unspecified).
The source word `00cggggggg` (R78) does exactly this, before any test of `c`. -/
def Obligations.DecOverflowRuns : Prop :=
  ∀ (s : State) (b : Byte), s.decPhase = .run →
    2 ^ s.cfg.wDec ≤ s.decResult.toNat + b.toNat * 2 ^ s.decShift.toNat →
    ∃ t, exec (.decOverflow b) s = .next t ∧ (∀ info, deliver (.srcRsp (0b00#2 ++ b) info) s = .next t) ∧
      t.decPhase = .done ∧ t.decStatus = .overflow ∧ t.decStatusOut = some 2 ∧
      t.decValue = none ∧ t.decCount = none ∧ t.decInfo.val = s.decInfo.val ∧
      t.sourceTaken = s.sourceTaken ++ [b] ∧ EncKept s t ∧ RestKept s t

/-- DEC.EOF (R115): in RUN, the first request included, the end of the input ends the decode with status 1; nothing is
consumed, no value and no count is shown; nothing else changes (DEC_RESULT and DEC_SHIFT are unspecified).
Every source word `01dddddddd` (R78) does exactly this. -/
def Obligations.DecEofRuns : Prop :=
  ∀ s : State, s.decPhase = .run →
    ∃ t, exec .decEof s = .next t ∧
      (∀ (d : BitVec 8) (info : Nat), deliver (.srcRsp (0b01#2 ++ d) info) s = .next t) ∧
      t.decPhase = .done ∧ t.decStatus = .truncatedInput ∧ t.decStatusOut = some 1 ∧
      t.decValue = none ∧ t.decCount = none ∧ t.decInfo.val = s.decInfo.val ∧
      t.sourceTaken = s.sourceTaken ∧ EncKept s t ∧ RestKept s t

/-- DEC.FAIL (R116): in RUN, a failure of the source ends the decode with status 3 and the source's description; nothing
is consumed, no value and no count is shown; nothing else changes (DEC_RESULT and DEC_SHIFT are unspecified).
Every source word `1edddddddd` (R78) does exactly this. -/
def Obligations.DecFailRuns : Prop :=
  ∀ (s : State) (info : Nat), s.decPhase = .run → s.cfg.io.has info = true →
    ∃ t, exec (.decFail info) s = .next t ∧
      (∀ d : BitVec 9, deliver (.srcRsp (0b1#1 ++ d) info) s = .next t) ∧
      t.decPhase = .done ∧ t.decStatus = .ioFailure ∧ t.decInfo.val = info ∧
      t.decStatusOut = some 3 ∧ t.decInfoOut.map Subtype.val = some info ∧
      t.decValue = none ∧ t.decCount = none ∧
      t.sourceTaken = s.sourceTaken ∧ EncKept s t ∧ RestKept s t

/-- The operation map (spec/30_encoding.md R80), over the raw response words of R78: in every state and for every
transfer exactly the row's operation is executed, or, where no row's condition holds, nothing changes. -/
def Obligations.OperationMapSelects : Prop :=
  ∀ s : State,
    deliver .rst s = exec .reset s ∧
    (∀ x, deliver (.encCmd x) s = if s.encPhase = .run then .next s else exec (.encStart x) s) ∧
    (∀ (w : SnkWord) (info : Nat), deliver (.snkRsp w info) s =
      if s.encPhase ≠ .run then .next s
      else if w = 1 then exec (.encAbort info) s
      else if s.encV.toNat / 128 = 0 then exec .encEmitFinal s
      else exec .encEmitCont s) ∧
    (deliver .decCmd s = if s.decPhase = .run then .next s else exec .decStart s) ∧
    (∀ (w : SrcWord) (info : Nat), deliver (.srcRsp w info) s =
      if s.decPhase ≠ .run then .next s
      else if w.toNat / 512 = 1 then exec (.decFail info) s
      else if w.toNat / 256 = 1 then exec .decEof s
      else if 2 ^ s.cfg.wDec ≤ s.decResult.toNat + w.toNat * 2 ^ s.decShift.toNat then
        exec (.decOverflow (BitVec.ofNat 8 w.toNat)) s
      else if w.toNat / 128 = 1 then exec (.decByteCont (BitVec.ofNat 7 w.toNat)) s
      else exec (.decByteFinal (BitVec.ofNat 7 w.toNat)) s)

/-- An event in a phase where it causes no step (R96, R118) changes nothing: a command to a running unit, which is not
ready, and an answer to an offer or a request that was not made. -/
def Obligations.EventsWithoutStepChangeNothing : Prop :=
  ∀ s : State,
    (s.encPhase = .run → s.encReady = false ∧ ∀ x, deliver (.encCmd x) s = .next s) ∧
    (s.encPhase ≠ .run → s.snkValid = false ∧
      ∀ (w : SnkWord) (info : Nat), deliver (.snkRsp w info) s = .next s) ∧
    (s.decPhase = .run → s.decReady = false ∧ deliver .decCmd s = .next s) ∧
    (s.decPhase ≠ .run → s.srcReq = false ∧
      ∀ (w : SrcWord) (info : Nat), deliver (.srcRsp w info) s = .next s)

/-- An operation asked for directly in a phase in which its event causes no step changes nothing; the model's choice
(notes/assumptions/10.md). -/
def Obligations.OperationsOutOfPhaseChangeNothing : Prop :=
  ∀ s : State,
    (s.encPhase = .run → ∀ x, exec (.encStart x) s = .next s) ∧
    (s.encPhase ≠ .run → exec .encEmitFinal s = .next s ∧ exec .encEmitCont s = .next s ∧
      ∀ info, exec (.encAbort info) s = .next s) ∧
    (s.decPhase = .run → exec .decStart s = .next s) ∧
    (s.decPhase ≠ .run →
      (∀ g, exec (.decByteFinal g) s = .next s) ∧ (∀ g, exec (.decByteCont g) s = .next s) ∧
      (∀ b, exec (.decOverflow b) s = .next s) ∧ exec .decEof s = .next s ∧
      ∀ info, exec (.decFail info) s = .next s)

/-- Where a running unit's datapath selects the sibling operation for the same answer (R80), the other operation is
refused by name; the model's choice (notes/assumptions/10.md). -/
def Obligations.SiblingOperationsRefused : Prop :=
  ∀ s : State,
    (s.encPhase = .run → s.encV.toNat / 128 ≠ 0 →
      exec .encEmitFinal s = .refused (.notSelected "ENC.EMIT.FINAL")) ∧
    (s.encPhase = .run → s.encV.toNat / 128 = 0 →
      exec .encEmitCont s = .refused (.notSelected "ENC.EMIT.CONT")) ∧
    (∀ g : Payload, s.decPhase = .run →
      2 ^ s.cfg.wDec ≤ s.decResult.toNat + g.toNat * 2 ^ s.decShift.toNat →
      exec (.decByteFinal g) s = .refused (.notSelected "DEC.BYTE.FINAL")) ∧
    (∀ g : Payload, s.decPhase = .run →
      2 ^ s.cfg.wDec ≤ s.decResult.toNat + (g.toNat + 128) * 2 ^ s.decShift.toNat →
      exec (.decByteCont g) s = .refused (.notSelected "DEC.BYTE.CONT")) ∧
    (∀ b : Byte, s.decPhase = .run →
      s.decResult.toNat + b.toNat * 2 ^ s.decShift.toNat < 2 ^ s.cfg.wDec →
      exec (.decOverflow b) s = .refused (.notSelected "DEC.OVERFLOW"))

/-- An operand that no port of the instance can carry is refused by name; the model's choice (notes/assumptions/9.md). -/
def Obligations.OperandsTooWideRefused : Prop :=
  ∀ s : State,
    (∀ x, s.encPhase ≠ .run → 2 ^ s.cfg.wEnc ≤ x → exec (.encStart x) s = .refused .commandTooWide) ∧
    (∀ info, s.encPhase = .run → s.cfg.io.has info = false → exec (.encAbort info) s = .refused .infoTooWide) ∧
    (∀ info, s.decPhase = .run → s.cfg.io.has info = false → exec (.decFail info) s = .refused .infoTooWide)

/-- A step takes the next transfer and runs the operation it decodes to, at the state without that transfer; a transfer
that selects none is only taken; with no transfer left the block waits unchanged (notes/assumptions/5.md). -/
def Obligations.StepRunsDecoded : Prop :=
  ∀ s : State,
    (∀ t rest i, s.inputs = t :: rest → decode (s.signals t) t = .op i →
      step s = exec i { s with inputs := rest }) ∧
    (∀ t rest why, s.inputs = t :: rest → decode (s.signals t) t = .noStep why →
      step s = .next { s with inputs := rest }) ∧
    (s.inputs = [] → step s = .next s)

/-- Words written out from the spec's tables decode to the operations they stand for (R78, R80, table T9). -/
def Obligations.SpecWordsDecode : Prop :=
  let run : Signals := { encRun := true, more := false, decRun := true, ovf := false }
  decode run (.srcRsp 0b0000000101#10 0) = .op (.decByteFinal 5) ∧
  decode run (.srcRsp 0b0010000101#10 0) = .op (.decByteCont 5) ∧
  decode run (.srcRsp 0b0100000101#10 0) = .op .decEof ∧
  decode run (.srcRsp 0b1000000101#10 7) = .op (.decFail 7) ∧
  decode run (.srcRsp 0b1111111111#10 7) = .op (.decFail 7) ∧
  decode { run with ovf := true } (.srcRsp 0b0010000101#10 0) = .op (.decOverflow 0x85) ∧
  decode run (.snkRsp 0 0) = .op .encEmitFinal ∧
  decode { run with more := true } (.snkRsp 0 0) = .op .encEmitCont ∧
  decode run (.snkRsp 1 7) = .op (.encAbort 7) ∧
  decode { run with encRun := false } (.encCmd 0x4080) = .op (.encStart 0x4080) ∧
  decode { run with decRun := false } .decCmd = .op .decStart ∧
  decode run .rst = .op .reset

/-- Decode and encode agree: under signals that select an operation (R80's column), decoding its encoding gives it back
with every operand; and whatever a transfer decodes to is selected under those signals and its encoding carries the
same event, so no bit of an encoding is dropped and no two operations share one. -/
def Obligations.DecodeEncodeAgree : Prop :=
  (∀ (g : Signals) (i : Instr), i.selectedUnder g = true → decode g (encode i) = .op i) ∧
  (∀ (g : Signals) (t : Transfer) (i : Instr), decode g t = .op i →
    i.selectedUnder g = true ∧ (encode i).event = t.event)

/-- A table word put where `step` takes its next transfer is the operation the next step runs, in every state whose decoder
is at least 8 bits wide (notes/assumptions/11.md). -/
def Obligations.TableWordRunsNext : Prop :=
  ∀ (s : State) (nbits w : Nat) (i : Instr), 8 ≤ s.cfg.wDec → decodeTableWord nbits w = some i →
    ∃ t, tableTransfer nbits w = some t ∧
      step (s.withFetchWord nbits w) = exec i (s.prepareFor t) ∧ ∃ u, exec i (s.prepareFor t) = .next u

/-- The encoder's datapath (spec/40_encoder.md R90): each of its five signals as a number, and the port that shows
BYTE. -/
def Obligations.EncoderDatapath : Prop :=
  ∀ s : State,
    s.encGroup.toNat = s.encV.toNat % 128 ∧
    s.encRest.toNat = s.encV.toNat / 128 ∧
    (s.encMore = true ↔ s.encV.toNat / 128 ≠ 0) ∧
    s.encByte.toNat = (if s.encV.toNat / 128 ≠ 0 then s.encV.toNat % 128 ||| 0x80 else s.encV.toNat % 128) ∧
    (s.encMore = true → s.encNext.toNat = s.encV.toNat / 128 - 1) ∧
    (s.cfg.wEnc ≤ 7 → s.encRest.toNat = 0 ∧ s.encMore = false ∧ s.encGroup.toNat = s.encV.toNat) ∧
    (s.encPhase = .run → s.snkData = some s.encByte)

/-- The decoder's datapath (spec/41_decoder.md R110, R120): the payload and the restored 1 together are the whole byte
shifted; the sum is exact, below 2^(W+8) where the shift is below W, and OVF is whether it reaches 2^W. -/
def Obligations.DecoderDatapath : Prop :=
  ∀ (s : State) (b : Byte),
    (payload b).toNat = b.toNat % 128 ∧
    (contBit b = true ↔ 128 ≤ b.toNat) ∧
    s.decTerm b =
      ((payload b).toNat <<< s.decShift.toNat) + ((contBit b).toNat <<< (s.decShift.toNat + 7)) ∧
    s.decTerm b = b.toNat <<< s.decShift.toNat ∧
    (∀ sh : Nat, ((b.toNat % 128) <<< sh) + ((b.toNat / 128) <<< (sh + 7)) = b.toNat <<< sh) ∧
    s.decSum b = s.decResult.toNat + s.decTerm b ∧
    (s.ovf b = true ↔ 2 ^ s.cfg.wDec ≤ s.decSum b) ∧
    (s.decShift.toNat < s.cfg.wDec → s.decSum b < 2 ^ (s.cfg.wDec + 8))

/-- The derived constants (spec/00_scope.md R10): NMAX is the ceiling of W / 7, SW and CW are the least widths that hold
SHIFT_MAX (at least 1) and NMAX; and the table's rows. -/
def Obligations.DerivedConstants : Prop :=
  (∀ w, 0 < w →
    (w ≤ 7 * nmax w ∧ 7 * nmax w < w + 7) ∧
    shiftMax w = 7 * (nmax w - 1) ∧
    (1 ≤ shiftWidth w ∧ shiftMax w < 2 ^ shiftWidth w ∧
      ∀ n, 1 ≤ n → shiftMax w < 2 ^ n → shiftWidth w ≤ n) ∧
    (nmax w < 2 ^ countWidth w ∧ ∀ n, nmax w < 2 ^ n → countWidth w ≤ n)) ∧
  [8, 16, 32, 64, 128].map nmax = [2, 3, 5, 10, 19] ∧
  [8, 16, 32, 64, 128].map shiftMax = [7, 14, 28, 63, 126] ∧
  [8, 16, 32, 64, 128].map shiftWidth = [3, 4, 5, 6, 7] ∧
  [8, 16, 32, 64, 128].map countWidth = [2, 2, 3, 4, 5]

/-- The ports (spec/10_state.md R34): each output as its function of the registers, and no value outside its condition. The
count is stated where it fits its port, which it does in every reachable state (`CountIsBytesConsumed`;
notes/assumptions/18.md). -/
def Obligations.PortsShowRegisters : Prop :=
  ∀ s : State,
    (s.encReady = true ↔ s.encPhase ≠ .run) ∧ (s.encDone = true ↔ s.encPhase = .done) ∧
    s.encStatusOut = (if s.encPhase = .done then some s.encStatus.code else none) ∧
    s.encInfoOut = (if s.encPhase = .done ∧ s.encStatus.code = 3 then some s.encInfo else none) ∧
    (s.snkValid = true ↔ s.encPhase = .run) ∧
    s.snkData = (if s.encPhase = .run then some s.encByte else none) ∧
    (s.decReady = true ↔ s.decPhase ≠ .run) ∧ (s.decDone = true ↔ s.decPhase = .done) ∧
    s.decStatusOut = (if s.decPhase = .done then some s.decStatus.code else none) ∧
    s.decInfoOut = (if s.decPhase = .done ∧ s.decStatus.code = 3 then some s.decInfo else none) ∧
    s.decValue = (if s.decPhase = .done ∧ s.decStatus.code = 0 then some s.decResult else none) ∧
    (¬ (s.decPhase = .done ∧ s.decStatus.code = 0) → s.decCount = none) ∧
    (s.decPhase = .done → s.decStatus.code = 0 → s.decShift.toNat / 7 + 1 < 2 ^ s.cfg.cw →
      s.decCount.map BitVec.toNat = some (s.decShift.toNat / 7 + 1)) ∧
    (s.srcReq = true ↔ s.decPhase = .run)

/-- Error completion (spec/60_exceptions.md R178): phase, status code and, for IoFailure only, the description, of the unit
that raises it; after one at DEC no value and no count is shown; the other unit and the streams are not touched. -/
def Obligations.ErrorCompletion : Prop :=
  ∀ (s : State) (k : ErrorKind s.cfg.io),
    let code : BitVec 2 := match k with
      | .truncatedInput => 1
      | .overflow => 2
      | .ioFailure _ => 3
    let info (old : s.cfg.io.Info) : Nat := match k with
      | .truncatedInput => old.val
      | .overflow => old.val
      | .ioFailure d => d.val
    ((s.raise .enc k).encPhase = .done ∧ (s.raise .enc k).encStatus.code = code ∧
      (s.raise .enc k).encInfo.val = info s.encInfo ∧ (s.raise .enc k).encV.toNat = s.encV.toNat ∧
      (s.raise .enc k).sinkStream = s.sinkStream ∧
      DecKept s (s.raise .enc k) ∧ RestKept s (s.raise .enc k)) ∧
    ((s.raise .dec k).decPhase = .done ∧ (s.raise .dec k).decStatus.code = code ∧
      (s.raise .dec k).decInfo.val = info s.decInfo ∧
      (s.raise .dec k).decValue = none ∧ (s.raise .dec k).decCount = none ∧
      (s.raise .dec k).sourceTaken = s.sourceTaken ∧
      EncKept s (s.raise .dec k) ∧ RestKept s (s.raise .dec k))

/-- After RESET (spec/70_reset_and_hazards.md R202) both units are in IDLE, ready, not done, and neither offers nor requests
a byte; and `State.reset` shows the same. -/
def Obligations.PortsAfterReset : Prop :=
  let quiet (t : State) : Prop :=
    t.encPhase = .idle ∧ t.decPhase = .idle ∧ t.encReady = true ∧ t.decReady = true ∧
    t.encDone = false ∧ t.decDone = false ∧ t.snkValid = false ∧ t.srcReq = false
  (∀ s : State, ∃ t, exec .reset s = .next t ∧ quiet t) ∧ ∀ c : Config, quiet (State.resetOf c)

/-- The outcome of an operation is shown until the unit's next START or RESET (R209): while a unit is in DONE every other
event leaves its ports as they are. -/
def Obligations.OutcomeHeldUntilStart : Prop :=
  ∀ (s t : State) (tr : Transfer), deliver tr s = .next t → tr ≠ .rst →
    (s.encPhase = .done → (∀ x, tr ≠ .encCmd x) → SameEncOutputs s t) ∧
    (s.decPhase = .done → tr ≠ .decCmd → SameDecOutputs s t)

/-- The invariant of reachable states holds at reset: in every instance's reset state, and after a RESET of any state,
whatever it left in the registers R200 does not fix. -/
def Obligations.ReachableInvAtReset : Prop :=
  (∀ c : Config, (State.resetOf c).Inv) ∧ ∀ s t : State, exec .reset s = .next t → t.Inv

/-- Every step keeps the invariant: ENC_STATUS is 0 or 3; while a decode runs, DEC_RESULT is exactly the value of the
continuation bytes consumed and DEC_SHIFT seven times their number; after a decode that completed with status 0 the
bytes counted are one encoding and DEC_RESULT is its value. -/
def Obligations.StepKeepsReachableInv : Prop :=
  ∀ s t : State, s.Inv → step s = .next t → t.Inv

/-- The invariant of a running decode (spec/41_decoder.md R119), clauses (a) to (e). -/
def Obligations.RunningDecodeBounds : Prop :=
  ∀ s : State, s.Inv → s.decPhase = .run →
    ∃ k, s.decShift.toNat / 7 = k ∧ s.decShift.toNat = 7 * k ∧ k ≤ s.sourceTaken.length ∧
      (lastN k s.sourceTaken).all isCont = true ∧
      s.decResult.toNat = assemble (lastN k s.sourceTaken) ∧
      (sumS k ≤ s.decResult.toNat ∧ s.decResult.toNat ≤ sumS k + 128 ^ k - 1) ∧
      s.decResult.toNat < 2 ^ s.cfg.wDec ∧
      (1 ≤ k → 2 ^ s.decShift.toNat ≤ s.decResult.toNat) ∧
      s.decShift.toNat < s.cfg.wDec ∧ s.decShift.toNat ≤ shiftMax s.cfg.wDec ∧
      (∀ b : Byte, isCont b = true → s.decShift.toNat = shiftMax s.cfg.wDec →
        2 ^ (shiftMax s.cfg.wDec + 7) ≤ s.decSum b ∧ s.ovf b = true)

/-- Reachable states (spec/10_state.md R33): from any state as RESET leaves it (R35, whatever the registers it does not fix
hold), whatever the environment sends, every state reached has legal phases; a multiple of 7 in DEC_SHIFT, at most
SHIFT_MAX and below W, and DEC_RESULT below 2^W, while a decode runs or has completed with status 0; and ENC_STATUS 0
or 3. -/
def Obligations.ReachableStates : Prop :=
  ∀ (n : Nat) (s t : State), s.encPhase = .idle → s.decPhase = .idle → s.encStatus = .ok → s.decStatus = .ok →
    core.run n s = .next t →
      t.encPhase.code ≠ 3 ∧ t.decPhase.code ≠ 3 ∧
      (t.decPhase = .run ∨ (t.decPhase = .done ∧ t.decStatus = .ok) →
        t.decShift.toNat % 7 = 0 ∧ t.decShift.toNat ≤ shiftMax t.cfg.wDec ∧
        t.decShift.toNat < t.cfg.wDec ∧ t.decResult.toNat < 2 ^ t.cfg.wDec) ∧
      (t.encStatus.code = 0 ∨ t.encStatus.code = 3)

/-- `dec_count` (R121): after a decode that completed with status 0, the count shown is the number of bytes it consumed,
which are one encoding of the value shown, and it lies between 1 and NMAX. -/
def Obligations.CountIsBytesConsumed : Prop :=
  ∀ s : State, s.Inv → s.decPhase = .done → s.decStatus = .ok →
    ∃ n, s.decCount.map BitVec.toNat = some n ∧ 1 ≤ n ∧ n ≤ nmax s.cfg.wDec ∧
      isEncoding (lastN n s.sourceTaken) = true ∧ (lastN n s.sourceTaken).length = n ∧
      s.decValue.map BitVec.toNat = some (assemble (lastN n s.sourceTaken))

/-- No run stops: where every coming transfer can cross its port, every number of steps from any state answers a next state,
of the same instance. Nothing but an operand too wide for its port ever stops the block (R175, R214). -/
def Obligations.PresentableRunsNeverStop : Prop :=
  ∀ (n : Nat) (s : State), (∀ t ∈ s.inputs, fitsPort s.cfg t = true) →
    ∃ t, core.run n s = .next t ∧ t.cfg = s.cfg ∧ t.inputs = s.inputs.drop n

/-- Progress (spec/70_reset_and_hazards.md R214): in RUN each answer produces a step that ends the operation or brings it
nearer to its end. -/
def Obligations.AnswersMakeProgress : Prop :=
  ∀ s : State,
    (∀ (w : SnkWord) (info : Nat), s.encPhase = .run → fitsPort s.cfg (.snkRsp w info) = true →
      ∃ t, deliver (.snkRsp w info) s = .next t ∧
        (t.encPhase = .done ∨ (t.encPhase = .run ∧ t.encV.toNat < s.encV.toNat))) ∧
    (∀ (w : SrcWord) (info : Nat), s.decPhase = .run → s.decShift.toNat % 7 = 0 →
      fitsPort s.cfg (.srcRsp w info) = true →
      ∃ t, deliver (.srcRsp w info) s = .next t ∧
        (t.decPhase = .done ∨ (t.decPhase = .run ∧ t.decShift.toNat = s.decShift.toNat + 7)))

/-- The units share nothing (spec/10_state.md R20, spec/20_memory.md R65): a transfer on the encoder's ports leaves the
decoder and the consumed bytes alone, one on the decoder's ports leaves the encoder and the sink stream alone, and the
two commute. -/
def Obligations.UnitsIndependent : Prop :=
  let onEnc (t : Transfer) : Prop := (∃ x, t = .encCmd x) ∨ ∃ w info, t = .snkRsp w info
  let onDec (t : Transfer) : Prop := t = .decCmd ∨ ∃ w info, t = .srcRsp w info
  ∀ (s : State) (te td : Transfer), onEnc te → onDec td →
    (∀ t, deliver te s = .next t → DecKept s t) ∧
    (∀ t, deliver td s = .next t → EncKept s t) ∧
    (fitsPort s.cfg td = true →
      andThen (deliver te s) (deliver td) = andThen (deliver td s) (deliver te))

/-- The signal level (spec/10_state.md R36, R37, R38): `rst` overrides; otherwise an edge makes at most one transfer per unit,
a command where the unit is ready, else the answer where one is asked for, fail before end before data, else none; and
a unit with no transfer keeps everything. -/
def Obligations.EdgeMakesTransfers : Prop :=
  ∀ (p : Pins) (s : State),
    (p.rst = true → edge p s = exec .reset s) ∧
    (p.rst = false → edge p s =
      andThen
        (if p.encCmdValid = true ∧ s.encPhase ≠ .run then exec (.encStart p.encCmdValue) s
         else if s.encPhase = .run ∧ p.snkReady = true then
           (if p.snkFail = true then exec (.encAbort p.snkInfo) s
            else if s.encV.toNat / 128 = 0 then exec .encEmitFinal s else exec .encEmitCont s)
         else .next s)
        (fun u =>
          if p.decCmdValid = true ∧ s.decPhase ≠ .run then exec .decStart u
          else if s.decPhase = .run ∧ p.srcValid = true then
            (if p.srcFail = true then exec (.decFail p.srcInfo) u
             else if p.srcEof = true then exec .decEof u
             else if s.ovf p.srcData = true then exec (.decOverflow p.srcData) u
             else if 128 ≤ p.srcData.toNat then exec (.decByteCont (payload p.srcData)) u
             else exec (.decByteFinal (payload p.srcData)) u)
          else .next u))

/-- `enc` obeys its defining recursion (spec/42_functions_and_laws.md R142). -/
def Obligations.EncRecursion : Prop :=
  (∀ v, v < 128 → enc v = [BitVec.ofNat 8 v]) ∧
  (∀ v, 128 ≤ v → enc v = BitVec.ofNat 8 (v % 128 + 128) :: enc ((v >>> 7) - 1))

/-- Round trip (R145), without and with a width. -/
def Obligations.RoundTrip : Prop :=
  (∀ v, decInf (enc v) = .ok v (enc v).length) ∧
  (∀ w v, v < 2 ^ w → decW w (enc v) = .ok v (enc v).length)

/-- Inverse round trip (R146): whatever decodes to v with n bytes consumed begins with `enc v`, of length n. -/
def Obligations.InverseRoundTrip : Prop :=
  ∀ (bs : List Byte) (v n : Nat), decInf bs = .ok v n → bs.take n = enc v ∧ n = (enc v).length

/-- Canonicality (R147): `enc` is a bijection between the natural numbers and the sequences `cont* final`, and, for each
width, between the values below 2^w and those sequences whose value is below 2^w; each such sequence is decoded,
consumed entirely, to the one value whose encoding it is. -/
def Obligations.CanonicalCode : Prop :=
  (∀ v, isEncoding (enc v) = true) ∧
  (∀ v v', enc v = enc v' → v = v') ∧
  (∀ bs, isEncoding bs = true → enc (assemble bs) = bs ∧ decInf bs = .ok (assemble bs) bs.length) ∧
  (∀ w bs v, decW w bs = .ok v bs.length ↔ bs = enc v ∧ v < 2 ^ w)

/-- Termination byte (R148): the last byte of `enc v` has its high bit clear and every other byte has it set. -/
def Obligations.TerminationByte : Prop :=
  ∀ v, ∃ front last, enc v = front ++ [last] ∧ front.all isCont = true ∧ isCont last = false

/-- Length (R149): `enc v` has n bytes exactly when `S_(n-1) <= v < S_n`; `S_n` in closed form; the least and the greatest
value of each length; the length does not decrease. -/
def Obligations.LengthBands : Prop :=
  (∀ v n, (enc v).length = n + 1 ↔ sumS n ≤ v ∧ v < sumS (n + 1)) ∧
  (∀ n, sumS n = (128 ^ (n + 1) - 128) / 127) ∧
  (List.range 8).map sumS =
    [0, 128, 16512, 2113664, 270549120, 34630287488, 4432676798592, 567382630219904] ∧
  (∀ n, enc (sumS n) = List.replicate n 0x80#8 ++ [0x00#8]) ∧
  (∀ n, enc (sumS (n + 1) - 1) = List.replicate n 0xFF#8 ++ [0x7F#8]) ∧
  (∀ v v', v ≤ v' → (enc v).length ≤ (enc v').length)

/-- Longest encoding (R150): a value of w bits takes between 1 and NMAX bytes, and 2^w - 1 takes NMAX. -/
def Obligations.LongestEncoding : Prop :=
  ∀ w, 0 < w →
    (∀ v, v < 2 ^ w → 1 ≤ (enc v).length ∧ (enc v).length ≤ nmax w) ∧ (enc (2 ^ w - 1)).length = nmax w

/-- Closed form (R151): the payload groups of `enc v` are the base-128 digits of `v - S_(n-1)`, least significant first,
and every byte but the last has 128 added. -/
def Obligations.ClosedForm : Prop :=
  ∀ v n, (enc v).length = n + 1 →
    v - sumS n < 128 ^ (n + 1) ∧
    ∀ i, i ≤ n →
      ((enc v)[i]?).map BitVec.toNat =
        some (((v - sumS n) >>> (7 * i)) % 128 + (if i < n then 128 else 0))

/-- Prefix freedom (R152): no encoding is a proper prefix of another, an encoding decodes with any bytes after it, and a
concatenation of encodings splits in one way. -/
def Obligations.PrefixFree : Prop :=
  (∀ v v', enc v <+: enc v' → v = v') ∧
  (∀ v bs, decInf (enc v ++ bs) = .ok v (enc v).length) ∧
  (∀ vs vs' : List Nat, vs.flatMap enc = vs'.flatMap enc → vs = vs')

/-- The decoding functions: the equations of R143 and R144, and the width-limited decoder against the unlimited one
(R144). -/
def Obligations.WidthLimitedDecoding : Prop :=
  (∀ bs, decInf bs = decInfLoop bs 0 0 0) ∧
  (∀ r sh n, decInfLoop [] r sh n = .trunc) ∧
  (∀ (b : Byte) t r sh n, decInfLoop (b :: t) r sh n =
    if b.toNat < 128 then .ok (r + b.toNat <<< sh) (n + 1)
    else decInfLoop t (r + b.toNat <<< sh) (sh + 7) (n + 1)) ∧
  (∀ w bs, decW w bs = decWLoop w bs 0 0 0) ∧
  (∀ w r sh n, decWLoop w [] r sh n = .trunc) ∧
  (∀ (w : Nat) (b : Byte) t r sh n, decWLoop w (b :: t) r sh n =
    if 2 ^ w ≤ r + b.toNat <<< sh then .ovf (n + 1)
    else if b.toNat < 128 then .ok (r + b.toNat <<< sh) (n + 1)
    else decWLoop w t (r + b.toNat <<< sh) (sh + 7) (n + 1)) ∧
  ∀ (w : Nat) (bs : List Byte),
    (∀ v n, decInf bs = .ok v n → v < 2 ^ w → decW w bs = .ok v n) ∧
    (∀ v n, decInf bs = .ok v n → 2 ^ w ≤ v → ∃ m, m ≤ n ∧ decW w bs = .ovf m) ∧
    (decInf bs = .trunc → decW w bs = .trunc ∨ ∃ m, decW w bs = .ovf m)

/-- The encoder's bound (spec/40_encoder.md R97): an encode of x that still runs after k accepted bytes has ENC_V below
2^(W-7k) and k at most NMAX - 1. -/
def Obligations.RunningEncodeBound : Prop :=
  ∀ (s t : State) (x k : Nat), s.encPhase ≠ .run → x < 2 ^ s.cfg.wEnc →
    deliverAll (.encCmd x :: List.replicate k Event.snkAccept.transfer) s = .next t → t.encPhase = .run →
    t.encV.toNat < 2 ^ (s.cfg.wEnc - 7 * k) ∧ 7 * k < s.cfg.wEnc ∧ k + 1 ≤ nmax s.cfg.wEnc

/-- The unit agrees with `enc` (R99): START x and accepted offers give exactly the bytes of `enc x`, in as many steps, and
complete with status 0; a failure at the offer after j accepted bytes leaves the first j bytes and completes with status
3 and the description; the decoder is untouched; and the pseudo-operation ENCODE is that run. -/
def Obligations.EncoderAgreesWithEnc : Prop :=
  ∀ (s : State) (x : Nat), s.encPhase ≠ .run → x < 2 ^ s.cfg.wEnc →
    (∃ t, deliverAll (.encCmd x :: List.replicate (enc x).length Event.snkAccept.transfer) s = .next t ∧
      t.sinkStream = s.sinkStream ++ enc x ∧ t.encPhase = .done ∧ t.encStatus = .ok ∧ DecKept s t ∧ RestKept s t ∧
      encodeCall x s = .next t) ∧
    (∀ j, j < (enc x).length → ∃ t,
      deliverAll (.encCmd x :: List.replicate j Event.snkAccept.transfer) s = .next t ∧
      t.encPhase = .run ∧ t.sinkStream = s.sinkStream ++ (enc x).take j) ∧
    (∀ j info, j < (enc x).length → s.cfg.io.has info = true → ∃ t,
      deliverAll (.encCmd x :: (List.replicate j Event.snkAccept.transfer ++ [(Event.snkFail info).transfer])) s
        = .next t ∧
      t.sinkStream = s.sinkStream ++ (enc x).take j ∧ t.encPhase = .done ∧ t.encStatus = .ioFailure ∧
      t.encInfo.val = info ∧ DecKept s t ∧ RestKept s t)

/-- Termination of an encode (R100): after START, any NMAX answers of the sink, accepting or failing, end it. -/
def Obligations.EncodeEndsWithinBound : Prop :=
  ∀ (s : State) (x : Nat) (as : List (SnkWord × Nat)), s.encPhase ≠ .run → x < 2 ^ s.cfg.wEnc →
    as.length = nmax s.cfg.wEnc → (∀ a ∈ as, s.cfg.io.has a.2 = true) →
    ∃ t, deliverAll (.encCmd x :: as.map (fun a => .snkRsp a.1 a.2)) s = .next t ∧ t.encPhase = .done

/-- The unit agrees with `dec_W` (spec/41_decoder.md R122): a decode from the list source over `bs` ends in DONE with the
outcome of `decW` on `bs`, its value and its count, and has consumed exactly the bytes the outcome says. -/
def Obligations.DecoderAgreesWithDecW : Prop :=
  ∀ (s : State) (bs : List Byte), s.decPhase ≠ .run →
    ∃ t, decodeCall bs s = .next t ∧ t.decPhase = .done ∧ EncKept s t ∧ RestKept s t ∧
      match decW s.cfg.wDec bs with
      | .ok v n =>
        t.decStatus.code = 0 ∧ t.decValue.map BitVec.toNat = some v ∧ t.decCount.map BitVec.toNat = some n ∧
          t.sourceTaken = s.sourceTaken ++ bs.take n
      | .trunc => t.decStatus.code = 1 ∧ t.decValue = none ∧ t.sourceTaken = s.sourceTaken ++ bs
      | .ovf n => t.decStatus.code = 2 ∧ t.decValue = none ∧ t.sourceTaken = s.sourceTaken ++ bs.take n

/-- Termination of a decode (R124): after START, any NMAX answers of the source end it. -/
def Obligations.DecodeEndsWithinBound : Prop :=
  ∀ (s : State) (as : List (SrcWord × Nat)), s.decPhase ≠ .run →
    as.length = nmax s.cfg.wDec → (∀ a ∈ as, s.cfg.io.has a.2 = true) →
    ∃ t, deliverAll (.decCmd :: as.map (fun a => .srcRsp a.1 a.2)) s = .next t ∧ t.decPhase = .done

/-- The loop back (R145 at the units, R123): what the encoder writes for x the decoder, at any width that holds x, reads
back as x, consuming exactly the encoder's bytes whatever follows them in the source. -/
def Obligations.LoopBackReturnsValue : Prop :=
  ∀ (s : State) (x : Nat) (tail : List Byte), s.encPhase ≠ .run → s.decPhase ≠ .run →
    x < 2 ^ s.cfg.wEnc → x < 2 ^ s.cfg.wDec →
    ∃ t u written, encodeCall x s = .next t ∧ t.sinkStream = s.sinkStream ++ written ∧
      decodeCall (written ++ tail) t = .next u ∧
      u.decStatusOut = some 0 ∧ u.decValue.map BitVec.toNat = some x ∧
      u.decCount.map BitVec.toNat = some written.length ∧ u.sourceTaken = s.sourceTaken ++ written

/-- Widths that differ (spec/70_reset_and_hazards.md R208): a decoder reads an encoder's value where it holds it and reports
Overflow where it does not. -/
def Obligations.WidthMismatch : Prop :=
  ∀ (s : State) (x : Nat), s.decPhase ≠ .run →
    ∃ t, decodeCall (enc x) s = .next t ∧ t.decPhase = .done ∧
      (x < 2 ^ s.cfg.wDec → t.decStatusOut = some 0 ∧ t.decValue.map BitVec.toNat = some x) ∧
      (2 ^ s.cfg.wDec ≤ x → t.decStatusOut = some 2 ∧ t.decValue = none)

/-- Order of emission (spec/20_memory.md R63): the sink stream of encodes made one after another is the concatenation of
their encodings in that order. -/
def Obligations.SinkStreamConcatenates : Prop :=
  ∀ (s : State) (xs : List Nat), s.encPhase ≠ .run → (∀ x ∈ xs, x < 2 ^ s.cfg.wEnc) →
    ∃ t, encodeAll xs s = .next t ∧ t.sinkStream = s.sinkStream ++ xs.flatMap enc ∧ t.encPhase ≠ .run

/-- Stateless units (spec/10_state.md R40): from two states of one instance, whatever happened before, the same START and
the same answers end with the same ports and, for the encoder, the same bytes written. -/
def Obligations.OutcomeForgetsThePast : Prop :=
  ∀ s s' : State, s.cfg = s'.cfg →
    (∀ (x : Nat) (as : List (SnkWord × Nat)) (t t' : State), s.encPhase ≠ .run → s'.encPhase ≠ .run →
      deliverAll (.encCmd x :: as.map (fun a => .snkRsp a.1 a.2)) s = .next t →
      deliverAll (.encCmd x :: as.map (fun a => .snkRsp a.1 a.2)) s' = .next t' →
      SameEncOutputs t t' ∧
        ∃ written, t.sinkStream = s.sinkStream ++ written ∧ t'.sinkStream = s'.sinkStream ++ written) ∧
    (∀ (as : List (SrcWord × Nat)) (t t' : State), s.decPhase ≠ .run → s'.decPhase ≠ .run →
      deliverAll (.decCmd :: as.map (fun a => .srcRsp a.1 a.2)) s = .next t →
      deliverAll (.decCmd :: as.map (fun a => .srcRsp a.1 a.2)) s' = .next t' →
      SameDecOutputs t t' ∧
        ∃ taken, t.sourceTaken = s.sourceTaken ++ taken ∧ t'.sourceTaken = s'.sourceTaken ++ taken)

/-- The type parameter IoInfo (spec/00_scope.md R11): the type is non-empty and, in a hardware instance, the FW-bit
vectors for any FW; and for every type IoInfo and every numbering of it, a value handed over with a failure of the sink
or the source to a running unit is what the unit's info output then shows, unchanged. -/
def Obligations.FailureDescriptionsOfAnyType : Prop :=
  (∀ t : IoType, t.has 0 = true) ∧
  (∀ fw i, (IoType.bits fw).has i = true ↔ i < 2 ^ fw) ∧
  ∀ (IoInfo : Type) (s : State) (k : Coding IoInfo s.cfg.io) (x : IoInfo),
    (s.encPhase = .run → ∃ t, deliver (sinkFails k x) s = .next t ∧ t.encStatusOut = some 3 ∧
      t.encInfoAs k = some x) ∧
    (s.decPhase = .run → ∃ t, deliver (sourceFails k x) s = .next t ∧ t.decStatusOut = some 3 ∧
      t.decInfoAs k = some x)

/-- Which types IoInfo an instance can have (R11; notes/assumptions/8.md): every non-empty type whose values can be told
apart by numbers has a parameter under which its values are exactly the type's, each under one number. -/
def Obligations.EveryNumberedTypeIsCovered : Prop :=
  ∀ (IoInfo : Type) (f : IoInfo → Nat), Nonempty IoInfo → (∀ x y, f x = f y → x = y) →
    ∃ (t : IoType) (k : Coding IoInfo t), ∀ i, t.has i = true → k.code (k.name i) = i

/-- The block does not look at a failure description (R11): from two states of instances that may differ in their type
of descriptions and in the descriptions held, two operations that differ in their descriptions only have the same
effect in everything else, and the descriptions shown stay related as those handed over were. -/
def Obligations.DescriptionsNotLookedAt : Prop :=
  ∀ (rel : Nat → Nat → Prop) (s s' t : State) (i i' : Instr), SameButInfo rel s s' → sameButInfo rel i i' →
    i'.wellFormed s'.cfg = true → exec i s = .next t →
    ∃ t', exec i' s' = .next t' ∧ SameButInfo rel t t'

/-- The end of a run (spec/70_reset_and_hazards.md R215): a unit is at rest in IDLE or DONE; a run has ended when both units
are at rest and no command is among the coming transfers (at the signal level: neither command wire is raised); a run
with a unit in RUN has not ended, and with nothing coming it is stuck and waits unchanged. That the host offers no further
command when none is among the coming transfers, or neither command wire is raised, is the model's reading
(notes/assumptions/22.md), and the coming transfers are its form of the environment (notes/assumptions/5.md). -/
def Obligations.RunEndsAtRest : Prop :=
  ∀ s : State,
    (s.atRest = true ↔ (s.encPhase = .idle ∨ s.encPhase = .done) ∧ (s.decPhase = .idle ∨ s.decPhase = .done)) ∧
    (s.runEnded = true ↔ s.atRest = true ∧ .decCmd ∉ s.inputs ∧ ∀ x, .encCmd x ∉ s.inputs) ∧
    (∀ p : Pins, p.runEnded s = true ↔ s.atRest = true ∧ p.encCmdValid = false ∧ p.decCmdValid = false) ∧
    (s.encPhase = .run ∨ s.decPhase = .run → s.atRest = false ∧ s.runEnded = false ∧
      (∀ p : Pins, p.runEnded s = false) ∧
      (s.inputs = [] → s.stuckOnEnvironment = true ∧ step s = .next s))

/-- An ended run stays ended (R215, R200, R96, R118): every step from there answers a next state in which the run has
ended, and, but for a RESET, it changes no register and no stream. That a run may have ended with RESET and unasked
answers still coming is the model's reading (notes/assumptions/22.md), and so is that an unasked answer is used up with
no step (notes/assumptions/14.md). -/
def Obligations.EndedRunStaysEnded : Prop :=
  ∀ s : State, s.runEnded = true →
    ∃ t, step s = .next t ∧ t.runEnded = true ∧ (s.inputs.head? ≠ some .rst → EncKept s t ∧ DecKept s t)
end

