-- ==== Sys2Proof/Laws/Codec.lean ====
section
/-! SUPPORT. The recursions behind the pure functions: fuel, shifts and accumulators generalised once. -/

namespace Sys2Proof.Machine

/-- Enough fuel is enough. -/
theorem encLoop_fuel (v : Nat) : ∀ n m, v < n → v < m → encLoop n v = encLoop m v := by
  induction v using Nat.strong_induction_on with
  | _ v ih =>
    intro n m hn hm
    obtain ⟨n, rfl⟩ : ∃ k, n = k + 1 := ⟨n - 1, by omega⟩
    obtain ⟨m, rfl⟩ : ∃ k, m = k + 1 := ⟨m - 1, by omega⟩
    simp only [encLoop]
    split
    · rfl
    · next hv =>
      rw [ih (v / 128 - 1) (by omega) n m (by omega) (by omega)]

theorem assembleAt_append (sh : Nat) (xs ys : List Byte) :
    assembleAt sh (xs ++ ys) = assembleAt sh xs + assembleAt (sh + 7 * xs.length) ys := by
  induction xs generalizing sh with
  | nil => simp [assembleAt]
  | cons b t ih =>
    simp only [List.cons_append, assembleAt, ih, List.length_cons]
    rw [show sh + 7 + 7 * t.length = sh + 7 * (t.length + 1) by omega]
    omega

/-- A shifted start only scales the value. -/
theorem assembleAt_shift (sh : Nat) (bs : List Byte) : assembleAt sh bs = 2 ^ sh * assemble bs := by
  have key : ∀ bs sh d, assembleAt (d + sh) bs = 2 ^ d * assembleAt sh bs := by
    intro bs
    induction bs with
    | nil => intro sh d; simp [assembleAt]
    | cons b t ih =>
      intro sh d
      simp only [assembleAt, Nat.shiftLeft_eq]
      rw [show d + sh + 7 = d + (sh + 7) by omega, ih, Nat.pow_add]
      ring
  exact key bs 0 sh

theorem sumS_succ (n : Nat) : sumS (n + 1) = 128 * (sumS n + 1) := by
  induction n with
  | zero => rfl
  | succ n ih =>
    have h : sumS (n + 1) = sumS n + 128 ^ (n + 1) := rfl
    have h2 : sumS (n + 1 + 1) = sumS (n + 1) + 128 ^ (n + 1) * 128 := rfl
    omega

end Sys2Proof.Machine
end

