-- ==== Sys2Proof/Laws/State.lean ====
section
/-! SUPPORT. One lemma per field of State and named update, each true by rfl. A register's content is read as a number
(`toNat`), at the width of `s.cfg`, which is what simp makes of an updated state's width by the `_cfg` lemmas. For two
updates on top of each other, `show` or `rfl` sees through both. -/

namespace Sys2Proof.Machine

@[simp] theorem State.pushSink_cfg (s : State) (b : Byte) :
    (s.pushSink b).cfg = s.cfg := rfl
@[simp] theorem State.pushSink_encPhase (s : State) (b : Byte) :
    (s.pushSink b).encPhase = s.encPhase := rfl
@[simp] theorem State.pushSink_encV (s : State) (b : Byte) :
    @BitVec.toNat s.cfg.wEnc (s.pushSink b).encV = s.encV.toNat := rfl
@[simp] theorem State.pushSink_encStatus (s : State) (b : Byte) :
    (s.pushSink b).encStatus = s.encStatus := rfl
@[simp] theorem State.pushSink_encInfo (s : State) (b : Byte) :
    @Subtype.val Nat (fun i => s.cfg.io.has i = true) (s.pushSink b).encInfo = s.encInfo.val := rfl
@[simp] theorem State.pushSink_decPhase (s : State) (b : Byte) :
    (s.pushSink b).decPhase = s.decPhase := rfl
@[simp] theorem State.pushSink_decResult (s : State) (b : Byte) :
    @BitVec.toNat s.cfg.wDec (s.pushSink b).decResult = s.decResult.toNat := rfl
@[simp] theorem State.pushSink_decShift (s : State) (b : Byte) :
    @BitVec.toNat s.cfg.sw (s.pushSink b).decShift = s.decShift.toNat := rfl
@[simp] theorem State.pushSink_decStatus (s : State) (b : Byte) :
    (s.pushSink b).decStatus = s.decStatus := rfl
@[simp] theorem State.pushSink_decInfo (s : State) (b : Byte) :
    @Subtype.val Nat (fun i => s.cfg.io.has i = true) (s.pushSink b).decInfo = s.decInfo.val := rfl
@[simp] theorem State.pushSink_sinkStream (s : State) (b : Byte) :
    (s.pushSink b).sinkStream = s.sinkStream ++ [b] := rfl
@[simp] theorem State.pushSink_sourceTaken (s : State) (b : Byte) :
    (s.pushSink b).sourceTaken = s.sourceTaken := rfl
@[simp] theorem State.pushSink_inputs (s : State) (b : Byte) :
    (s.pushSink b).inputs = s.inputs := rfl
@[simp] theorem State.pushSink_draws (s : State) (b : Byte) :
    (s.pushSink b).draws = s.draws := rfl

@[simp] theorem State.takeByte_cfg (s : State) (b : Byte) :
    (s.takeByte b).cfg = s.cfg := rfl
@[simp] theorem State.takeByte_encPhase (s : State) (b : Byte) :
    (s.takeByte b).encPhase = s.encPhase := rfl
@[simp] theorem State.takeByte_encV (s : State) (b : Byte) :
    @BitVec.toNat s.cfg.wEnc (s.takeByte b).encV = s.encV.toNat := rfl
@[simp] theorem State.takeByte_encStatus (s : State) (b : Byte) :
    (s.takeByte b).encStatus = s.encStatus := rfl
@[simp] theorem State.takeByte_encInfo (s : State) (b : Byte) :
    @Subtype.val Nat (fun i => s.cfg.io.has i = true) (s.takeByte b).encInfo = s.encInfo.val := rfl
@[simp] theorem State.takeByte_decPhase (s : State) (b : Byte) :
    (s.takeByte b).decPhase = s.decPhase := rfl
@[simp] theorem State.takeByte_decResult (s : State) (b : Byte) :
    @BitVec.toNat s.cfg.wDec (s.takeByte b).decResult = s.decResult.toNat := rfl
@[simp] theorem State.takeByte_decShift (s : State) (b : Byte) :
    @BitVec.toNat s.cfg.sw (s.takeByte b).decShift = s.decShift.toNat := rfl
@[simp] theorem State.takeByte_decStatus (s : State) (b : Byte) :
    (s.takeByte b).decStatus = s.decStatus := rfl
@[simp] theorem State.takeByte_decInfo (s : State) (b : Byte) :
    @Subtype.val Nat (fun i => s.cfg.io.has i = true) (s.takeByte b).decInfo = s.decInfo.val := rfl
@[simp] theorem State.takeByte_sinkStream (s : State) (b : Byte) :
    (s.takeByte b).sinkStream = s.sinkStream := rfl
@[simp] theorem State.takeByte_sourceTaken (s : State) (b : Byte) :
    (s.takeByte b).sourceTaken = s.sourceTaken ++ [b] := rfl
@[simp] theorem State.takeByte_inputs (s : State) (b : Byte) :
    (s.takeByte b).inputs = s.inputs := rfl
@[simp] theorem State.takeByte_draws (s : State) (b : Byte) :
    (s.takeByte b).draws = s.draws := rfl

@[simp] theorem State.beginEnc_cfg (s : State) (v : BitVec s.cfg.wEnc) :
    (s.beginEnc v).cfg = s.cfg := rfl
@[simp] theorem State.beginEnc_encPhase (s : State) (v : BitVec s.cfg.wEnc) :
    (s.beginEnc v).encPhase = .run := rfl
@[simp] theorem State.beginEnc_encV (s : State) (v : BitVec s.cfg.wEnc) :
    @BitVec.toNat s.cfg.wEnc (s.beginEnc v).encV = v.toNat := rfl
@[simp] theorem State.beginEnc_encStatus (s : State) (v : BitVec s.cfg.wEnc) :
    (s.beginEnc v).encStatus = s.encStatus := rfl
@[simp] theorem State.beginEnc_encInfo (s : State) (v : BitVec s.cfg.wEnc) :
    @Subtype.val Nat (fun i => s.cfg.io.has i = true) (s.beginEnc v).encInfo = s.encInfo.val := rfl
@[simp] theorem State.beginEnc_decPhase (s : State) (v : BitVec s.cfg.wEnc) :
    (s.beginEnc v).decPhase = s.decPhase := rfl
@[simp] theorem State.beginEnc_decResult (s : State) (v : BitVec s.cfg.wEnc) :
    @BitVec.toNat s.cfg.wDec (s.beginEnc v).decResult = s.decResult.toNat := rfl
@[simp] theorem State.beginEnc_decShift (s : State) (v : BitVec s.cfg.wEnc) :
    @BitVec.toNat s.cfg.sw (s.beginEnc v).decShift = s.decShift.toNat := rfl
@[simp] theorem State.beginEnc_decStatus (s : State) (v : BitVec s.cfg.wEnc) :
    (s.beginEnc v).decStatus = s.decStatus := rfl
@[simp] theorem State.beginEnc_decInfo (s : State) (v : BitVec s.cfg.wEnc) :
    @Subtype.val Nat (fun i => s.cfg.io.has i = true) (s.beginEnc v).decInfo = s.decInfo.val := rfl
@[simp] theorem State.beginEnc_sinkStream (s : State) (v : BitVec s.cfg.wEnc) :
    (s.beginEnc v).sinkStream = s.sinkStream := rfl
@[simp] theorem State.beginEnc_sourceTaken (s : State) (v : BitVec s.cfg.wEnc) :
    (s.beginEnc v).sourceTaken = s.sourceTaken := rfl
@[simp] theorem State.beginEnc_inputs (s : State) (v : BitVec s.cfg.wEnc) :
    (s.beginEnc v).inputs = s.inputs := rfl
@[simp] theorem State.beginEnc_draws (s : State) (v : BitVec s.cfg.wEnc) :
    (s.beginEnc v).draws = s.draws := rfl

@[simp] theorem State.loadNext_cfg (s : State) :
    s.loadNext.cfg = s.cfg := rfl
@[simp] theorem State.loadNext_encPhase (s : State) :
    s.loadNext.encPhase = s.encPhase := rfl
@[simp] theorem State.loadNext_encV (s : State) :
    @BitVec.toNat s.cfg.wEnc s.loadNext.encV = s.encNext.toNat := rfl
@[simp] theorem State.loadNext_encStatus (s : State) :
    s.loadNext.encStatus = s.encStatus := rfl
@[simp] theorem State.loadNext_encInfo (s : State) :
    @Subtype.val Nat (fun i => s.cfg.io.has i = true) s.loadNext.encInfo = s.encInfo.val := rfl
@[simp] theorem State.loadNext_decPhase (s : State) :
    s.loadNext.decPhase = s.decPhase := rfl
@[simp] theorem State.loadNext_decResult (s : State) :
    @BitVec.toNat s.cfg.wDec s.loadNext.decResult = s.decResult.toNat := rfl
@[simp] theorem State.loadNext_decShift (s : State) :
    @BitVec.toNat s.cfg.sw s.loadNext.decShift = s.decShift.toNat := rfl
@[simp] theorem State.loadNext_decStatus (s : State) :
    s.loadNext.decStatus = s.decStatus := rfl
@[simp] theorem State.loadNext_decInfo (s : State) :
    @Subtype.val Nat (fun i => s.cfg.io.has i = true) s.loadNext.decInfo = s.decInfo.val := rfl
@[simp] theorem State.loadNext_sinkStream (s : State) :
    s.loadNext.sinkStream = s.sinkStream := rfl
@[simp] theorem State.loadNext_sourceTaken (s : State) :
    s.loadNext.sourceTaken = s.sourceTaken := rfl
@[simp] theorem State.loadNext_inputs (s : State) :
    s.loadNext.inputs = s.inputs := rfl
@[simp] theorem State.loadNext_draws (s : State) :
    s.loadNext.draws = s.draws := rfl

@[simp] theorem State.beginDec_cfg (s : State) :
    s.beginDec.cfg = s.cfg := rfl
@[simp] theorem State.beginDec_encPhase (s : State) :
    s.beginDec.encPhase = s.encPhase := rfl
@[simp] theorem State.beginDec_encV (s : State) :
    @BitVec.toNat s.cfg.wEnc s.beginDec.encV = s.encV.toNat := rfl
@[simp] theorem State.beginDec_encStatus (s : State) :
    s.beginDec.encStatus = s.encStatus := rfl
@[simp] theorem State.beginDec_encInfo (s : State) :
    @Subtype.val Nat (fun i => s.cfg.io.has i = true) s.beginDec.encInfo = s.encInfo.val := rfl
@[simp] theorem State.beginDec_decPhase (s : State) :
    s.beginDec.decPhase = .run := rfl
@[simp] theorem State.beginDec_decResult (s : State) :
    @BitVec.toNat s.cfg.wDec s.beginDec.decResult = 0 := rfl
@[simp] theorem State.beginDec_decShift (s : State) :
    @BitVec.toNat s.cfg.sw s.beginDec.decShift = 0 := rfl
@[simp] theorem State.beginDec_decStatus (s : State) :
    s.beginDec.decStatus = s.decStatus := rfl
@[simp] theorem State.beginDec_decInfo (s : State) :
    @Subtype.val Nat (fun i => s.cfg.io.has i = true) s.beginDec.decInfo = s.decInfo.val := rfl
@[simp] theorem State.beginDec_sinkStream (s : State) :
    s.beginDec.sinkStream = s.sinkStream := rfl
@[simp] theorem State.beginDec_sourceTaken (s : State) :
    s.beginDec.sourceTaken = s.sourceTaken := rfl
@[simp] theorem State.beginDec_inputs (s : State) :
    s.beginDec.inputs = s.inputs := rfl
@[simp] theorem State.beginDec_draws (s : State) :
    s.beginDec.draws = s.draws := rfl

@[simp] theorem State.accumulate_cfg (s : State) (b : Byte) :
    (s.accumulate b).cfg = s.cfg := rfl
@[simp] theorem State.accumulate_encPhase (s : State) (b : Byte) :
    (s.accumulate b).encPhase = s.encPhase := rfl
@[simp] theorem State.accumulate_encV (s : State) (b : Byte) :
    @BitVec.toNat s.cfg.wEnc (s.accumulate b).encV = s.encV.toNat := rfl
@[simp] theorem State.accumulate_encStatus (s : State) (b : Byte) :
    (s.accumulate b).encStatus = s.encStatus := rfl
@[simp] theorem State.accumulate_encInfo (s : State) (b : Byte) :
    @Subtype.val Nat (fun i => s.cfg.io.has i = true) (s.accumulate b).encInfo = s.encInfo.val := rfl
@[simp] theorem State.accumulate_decPhase (s : State) (b : Byte) :
    (s.accumulate b).decPhase = s.decPhase := rfl
@[simp] theorem State.accumulate_decResult (s : State) (b : Byte) :
    @BitVec.toNat s.cfg.wDec (s.accumulate b).decResult = (BitVec.ofNat s.cfg.wDec (s.decSum b)).toNat := rfl
@[simp] theorem State.accumulate_decShift (s : State) (b : Byte) :
    @BitVec.toNat s.cfg.sw (s.accumulate b).decShift = s.decShift.toNat := rfl
@[simp] theorem State.accumulate_decStatus (s : State) (b : Byte) :
    (s.accumulate b).decStatus = s.decStatus := rfl
@[simp] theorem State.accumulate_decInfo (s : State) (b : Byte) :
    @Subtype.val Nat (fun i => s.cfg.io.has i = true) (s.accumulate b).decInfo = s.decInfo.val := rfl
@[simp] theorem State.accumulate_sinkStream (s : State) (b : Byte) :
    (s.accumulate b).sinkStream = s.sinkStream := rfl
@[simp] theorem State.accumulate_sourceTaken (s : State) (b : Byte) :
    (s.accumulate b).sourceTaken = s.sourceTaken ++ [b] := rfl
@[simp] theorem State.accumulate_inputs (s : State) (b : Byte) :
    (s.accumulate b).inputs = s.inputs := rfl
@[simp] theorem State.accumulate_draws (s : State) (b : Byte) :
    (s.accumulate b).draws = s.draws := rfl

@[simp] theorem State.advanceShift_cfg (s : State) :
    s.advanceShift.cfg = s.cfg := rfl
@[simp] theorem State.advanceShift_encPhase (s : State) :
    s.advanceShift.encPhase = s.encPhase := rfl
@[simp] theorem State.advanceShift_encV (s : State) :
    @BitVec.toNat s.cfg.wEnc s.advanceShift.encV = s.encV.toNat := rfl
@[simp] theorem State.advanceShift_encStatus (s : State) :
    s.advanceShift.encStatus = s.encStatus := rfl
@[simp] theorem State.advanceShift_encInfo (s : State) :
    @Subtype.val Nat (fun i => s.cfg.io.has i = true) s.advanceShift.encInfo = s.encInfo.val := rfl
@[simp] theorem State.advanceShift_decPhase (s : State) :
    s.advanceShift.decPhase = s.decPhase := rfl
@[simp] theorem State.advanceShift_decResult (s : State) :
    @BitVec.toNat s.cfg.wDec s.advanceShift.decResult = s.decResult.toNat := rfl
@[simp] theorem State.advanceShift_decShift (s : State) :
    @BitVec.toNat s.cfg.sw s.advanceShift.decShift = (s.decShift + 7).toNat := rfl
@[simp] theorem State.advanceShift_decStatus (s : State) :
    s.advanceShift.decStatus = s.decStatus := rfl
@[simp] theorem State.advanceShift_decInfo (s : State) :
    @Subtype.val Nat (fun i => s.cfg.io.has i = true) s.advanceShift.decInfo = s.decInfo.val := rfl
@[simp] theorem State.advanceShift_sinkStream (s : State) :
    s.advanceShift.sinkStream = s.sinkStream := rfl
@[simp] theorem State.advanceShift_sourceTaken (s : State) :
    s.advanceShift.sourceTaken = s.sourceTaken := rfl
@[simp] theorem State.advanceShift_inputs (s : State) :
    s.advanceShift.inputs = s.inputs := rfl
@[simp] theorem State.advanceShift_draws (s : State) :
    s.advanceShift.draws = s.draws := rfl

@[simp] theorem State.completeOk_enc_cfg (s : State) :
    (s.completeOk .enc).cfg = s.cfg := rfl
@[simp] theorem State.completeOk_enc_encPhase (s : State) :
    (s.completeOk .enc).encPhase = .done := rfl
@[simp] theorem State.completeOk_enc_encV (s : State) :
    @BitVec.toNat s.cfg.wEnc (s.completeOk .enc).encV = s.encV.toNat := rfl
@[simp] theorem State.completeOk_enc_encStatus (s : State) :
    (s.completeOk .enc).encStatus = .ok := rfl
@[simp] theorem State.completeOk_enc_encInfo (s : State) :
    @Subtype.val Nat (fun i => s.cfg.io.has i = true) (s.completeOk .enc).encInfo = s.encInfo.val := rfl
@[simp] theorem State.completeOk_enc_decPhase (s : State) :
    (s.completeOk .enc).decPhase = s.decPhase := rfl
@[simp] theorem State.completeOk_enc_decResult (s : State) :
    @BitVec.toNat s.cfg.wDec (s.completeOk .enc).decResult = s.decResult.toNat := rfl
@[simp] theorem State.completeOk_enc_decShift (s : State) :
    @BitVec.toNat s.cfg.sw (s.completeOk .enc).decShift = s.decShift.toNat := rfl
@[simp] theorem State.completeOk_enc_decStatus (s : State) :
    (s.completeOk .enc).decStatus = s.decStatus := rfl
@[simp] theorem State.completeOk_enc_decInfo (s : State) :
    @Subtype.val Nat (fun i => s.cfg.io.has i = true) (s.completeOk .enc).decInfo = s.decInfo.val := rfl
@[simp] theorem State.completeOk_enc_sinkStream (s : State) :
    (s.completeOk .enc).sinkStream = s.sinkStream := rfl
@[simp] theorem State.completeOk_enc_sourceTaken (s : State) :
    (s.completeOk .enc).sourceTaken = s.sourceTaken := rfl
@[simp] theorem State.completeOk_enc_inputs (s : State) :
    (s.completeOk .enc).inputs = s.inputs := rfl
@[simp] theorem State.completeOk_enc_draws (s : State) :
    (s.completeOk .enc).draws = s.draws := rfl

@[simp] theorem State.completeOk_dec_cfg (s : State) :
    (s.completeOk .dec).cfg = s.cfg := rfl
@[simp] theorem State.completeOk_dec_encPhase (s : State) :
    (s.completeOk .dec).encPhase = s.encPhase := rfl
@[simp] theorem State.completeOk_dec_encV (s : State) :
    @BitVec.toNat s.cfg.wEnc (s.completeOk .dec).encV = s.encV.toNat := rfl
@[simp] theorem State.completeOk_dec_encStatus (s : State) :
    (s.completeOk .dec).encStatus = s.encStatus := rfl
@[simp] theorem State.completeOk_dec_encInfo (s : State) :
    @Subtype.val Nat (fun i => s.cfg.io.has i = true) (s.completeOk .dec).encInfo = s.encInfo.val := rfl
@[simp] theorem State.completeOk_dec_decPhase (s : State) :
    (s.completeOk .dec).decPhase = .done := rfl
@[simp] theorem State.completeOk_dec_decResult (s : State) :
    @BitVec.toNat s.cfg.wDec (s.completeOk .dec).decResult = s.decResult.toNat := rfl
@[simp] theorem State.completeOk_dec_decShift (s : State) :
    @BitVec.toNat s.cfg.sw (s.completeOk .dec).decShift = s.decShift.toNat := rfl
@[simp] theorem State.completeOk_dec_decStatus (s : State) :
    (s.completeOk .dec).decStatus = .ok := rfl
@[simp] theorem State.completeOk_dec_decInfo (s : State) :
    @Subtype.val Nat (fun i => s.cfg.io.has i = true) (s.completeOk .dec).decInfo = s.decInfo.val := rfl
@[simp] theorem State.completeOk_dec_sinkStream (s : State) :
    (s.completeOk .dec).sinkStream = s.sinkStream := rfl
@[simp] theorem State.completeOk_dec_sourceTaken (s : State) :
    (s.completeOk .dec).sourceTaken = s.sourceTaken := rfl
@[simp] theorem State.completeOk_dec_inputs (s : State) :
    (s.completeOk .dec).inputs = s.inputs := rfl
@[simp] theorem State.completeOk_dec_draws (s : State) :
    (s.completeOk .dec).draws = s.draws := rfl

@[simp] theorem State.raise_enc_cfg (s : State) (k : ErrorKind s.cfg.io) :
    (s.raise .enc k).cfg = s.cfg := rfl
@[simp] theorem State.raise_enc_encPhase (s : State) (k : ErrorKind s.cfg.io) :
    (s.raise .enc k).encPhase = .done := rfl
@[simp] theorem State.raise_enc_encV (s : State) (k : ErrorKind s.cfg.io) :
    @BitVec.toNat s.cfg.wEnc (s.raise .enc k).encV = s.encV.toNat := rfl
@[simp] theorem State.raise_enc_encStatus (s : State) (k : ErrorKind s.cfg.io) :
    (s.raise .enc k).encStatus = errorStatus k := rfl
@[simp] theorem State.raise_enc_encInfo (s : State) (k : ErrorKind s.cfg.io) :
    @Subtype.val Nat (fun i => s.cfg.io.has i = true) (s.raise .enc k).encInfo = (errorInfo s.encInfo k).val := rfl
@[simp] theorem State.raise_enc_decPhase (s : State) (k : ErrorKind s.cfg.io) :
    (s.raise .enc k).decPhase = s.decPhase := rfl
@[simp] theorem State.raise_enc_decResult (s : State) (k : ErrorKind s.cfg.io) :
    @BitVec.toNat s.cfg.wDec (s.raise .enc k).decResult = s.decResult.toNat := rfl
@[simp] theorem State.raise_enc_decShift (s : State) (k : ErrorKind s.cfg.io) :
    @BitVec.toNat s.cfg.sw (s.raise .enc k).decShift = s.decShift.toNat := rfl
@[simp] theorem State.raise_enc_decStatus (s : State) (k : ErrorKind s.cfg.io) :
    (s.raise .enc k).decStatus = s.decStatus := rfl
@[simp] theorem State.raise_enc_decInfo (s : State) (k : ErrorKind s.cfg.io) :
    @Subtype.val Nat (fun i => s.cfg.io.has i = true) (s.raise .enc k).decInfo = s.decInfo.val := rfl
@[simp] theorem State.raise_enc_sinkStream (s : State) (k : ErrorKind s.cfg.io) :
    (s.raise .enc k).sinkStream = s.sinkStream := rfl
@[simp] theorem State.raise_enc_sourceTaken (s : State) (k : ErrorKind s.cfg.io) :
    (s.raise .enc k).sourceTaken = s.sourceTaken := rfl
@[simp] theorem State.raise_enc_inputs (s : State) (k : ErrorKind s.cfg.io) :
    (s.raise .enc k).inputs = s.inputs := rfl
@[simp] theorem State.raise_enc_draws (s : State) (k : ErrorKind s.cfg.io) :
    (s.raise .enc k).draws = s.draws := rfl

@[simp] theorem State.raise_dec_cfg (s : State) (k : ErrorKind s.cfg.io) :
    (s.raise .dec k).cfg = s.cfg := rfl
@[simp] theorem State.raise_dec_encPhase (s : State) (k : ErrorKind s.cfg.io) :
    (s.raise .dec k).encPhase = s.encPhase := rfl
@[simp] theorem State.raise_dec_encV (s : State) (k : ErrorKind s.cfg.io) :
    @BitVec.toNat s.cfg.wEnc (s.raise .dec k).encV = s.encV.toNat := rfl
@[simp] theorem State.raise_dec_encStatus (s : State) (k : ErrorKind s.cfg.io) :
    (s.raise .dec k).encStatus = s.encStatus := rfl
@[simp] theorem State.raise_dec_encInfo (s : State) (k : ErrorKind s.cfg.io) :
    @Subtype.val Nat (fun i => s.cfg.io.has i = true) (s.raise .dec k).encInfo = s.encInfo.val := rfl
@[simp] theorem State.raise_dec_decPhase (s : State) (k : ErrorKind s.cfg.io) :
    (s.raise .dec k).decPhase = .done := rfl
@[simp] theorem State.raise_dec_decResult (s : State) (k : ErrorKind s.cfg.io) :
    @BitVec.toNat s.cfg.wDec (s.raise .dec k).decResult = (Config.freeValue s.draws .decResult s.cfg.wDec).toNat := rfl
@[simp] theorem State.raise_dec_decShift (s : State) (k : ErrorKind s.cfg.io) :
    @BitVec.toNat s.cfg.sw (s.raise .dec k).decShift = (Config.freeValue s.draws .decShift s.cfg.sw).toNat := rfl
@[simp] theorem State.raise_dec_decStatus (s : State) (k : ErrorKind s.cfg.io) :
    (s.raise .dec k).decStatus = errorStatus k := rfl
@[simp] theorem State.raise_dec_decInfo (s : State) (k : ErrorKind s.cfg.io) :
    @Subtype.val Nat (fun i => s.cfg.io.has i = true) (s.raise .dec k).decInfo = (errorInfo s.decInfo k).val := rfl
@[simp] theorem State.raise_dec_sinkStream (s : State) (k : ErrorKind s.cfg.io) :
    (s.raise .dec k).sinkStream = s.sinkStream := rfl
@[simp] theorem State.raise_dec_sourceTaken (s : State) (k : ErrorKind s.cfg.io) :
    (s.raise .dec k).sourceTaken = s.sourceTaken := rfl
@[simp] theorem State.raise_dec_inputs (s : State) (k : ErrorKind s.cfg.io) :
    (s.raise .dec k).inputs = s.inputs := rfl
@[simp] theorem State.raise_dec_draws (s : State) (k : ErrorKind s.cfg.io) :
    (s.raise .dec k).draws = s.draws + 1 := rfl

@[simp] theorem State.offer_cfg (s : State) (t : Transfer) :
    (s.offer t).cfg = s.cfg := rfl
@[simp] theorem State.offer_encPhase (s : State) (t : Transfer) :
    (s.offer t).encPhase = s.encPhase := rfl
@[simp] theorem State.offer_encV (s : State) (t : Transfer) :
    @BitVec.toNat s.cfg.wEnc (s.offer t).encV = s.encV.toNat := rfl
@[simp] theorem State.offer_encStatus (s : State) (t : Transfer) :
    (s.offer t).encStatus = s.encStatus := rfl
@[simp] theorem State.offer_encInfo (s : State) (t : Transfer) :
    @Subtype.val Nat (fun i => s.cfg.io.has i = true) (s.offer t).encInfo = s.encInfo.val := rfl
@[simp] theorem State.offer_decPhase (s : State) (t : Transfer) :
    (s.offer t).decPhase = s.decPhase := rfl
@[simp] theorem State.offer_decResult (s : State) (t : Transfer) :
    @BitVec.toNat s.cfg.wDec (s.offer t).decResult = s.decResult.toNat := rfl
@[simp] theorem State.offer_decShift (s : State) (t : Transfer) :
    @BitVec.toNat s.cfg.sw (s.offer t).decShift = s.decShift.toNat := rfl
@[simp] theorem State.offer_decStatus (s : State) (t : Transfer) :
    (s.offer t).decStatus = s.decStatus := rfl
@[simp] theorem State.offer_decInfo (s : State) (t : Transfer) :
    @Subtype.val Nat (fun i => s.cfg.io.has i = true) (s.offer t).decInfo = s.decInfo.val := rfl
@[simp] theorem State.offer_sinkStream (s : State) (t : Transfer) :
    (s.offer t).sinkStream = s.sinkStream := rfl
@[simp] theorem State.offer_sourceTaken (s : State) (t : Transfer) :
    (s.offer t).sourceTaken = s.sourceTaken := rfl
@[simp] theorem State.offer_inputs (s : State) (t : Transfer) :
    (s.offer t).inputs = t :: s.inputs := rfl
@[simp] theorem State.offer_draws (s : State) (t : Transfer) :
    (s.offer t).draws = s.draws := rfl

end Sys2Proof.Machine
end

