-- ==== Sys2Proof/Laws/Datapath.lean ====
section
/-! SUPPORT. The datapath signals as numbers: one lemma per signal, cited instead of unfolding it. -/

namespace Sys2Proof.Machine

theorem payload_toNat (b : Byte) : (payload b).toNat = b.toNat % 128 := by
  simp [payload, BitVec.toNat_setWidth]

theorem contBit_eq (b : Byte) : contBit b = decide (128 ≤ b.toNat) := by
  have h := b.isLt
  simp only [contBit, BitVec.getLsbD, Nat.testBit_eq_decide_div_mod_eq]
  congr 1
  simp only [eq_iff_iff]
  omega

theorem wireByte_toNat (c : Bool) (g : Payload) : (wireByte c g).toNat = g.toNat + (if c then 128 else 0) := by
  have h := g.isLt
  cases c
  · simp only [wireByte, BitVec.toNat_append, BitVec.ofBool_false]
    simp
  · simp only [wireByte, BitVec.toNat_append, BitVec.ofBool_true]
    rw [← Nat.shiftLeft_add_eq_or_of_lt h]
    simp [Nat.shiftLeft_eq]
    omega

theorem wireByte_parts (b : Byte) : wireByte (contBit b) (payload b) = b := by
  apply BitVec.eq_of_toNat_eq
  have h := b.isLt
  rw [wireByte_toNat, payload_toNat, contBit_eq]
  by_cases hb : 128 ≤ b.toNat <;> simp [hb] <;> omega

theorem payload_wireByte (c : Bool) (g : Payload) : payload (wireByte c g) = g := by
  apply BitVec.eq_of_toNat_eq
  have h := g.isLt
  rw [payload_toNat, wireByte_toNat]
  cases c <;> simp <;> omega

theorem contBit_wireByte (c : Bool) (g : Payload) : contBit (wireByte c g) = c := by
  have h := g.isLt
  rw [contBit_eq, wireByte_toNat]
  cases c <;> simp
  omega

theorem atWidth_of_lt {w x : Nat} (h : x < 2 ^ w) : atWidth w x = some (BitVec.ofNat w x) := by
  simp [atWidth, h]

theorem atWidth_of_le {w x : Nat} (h : 2 ^ w ≤ x) : atWidth w x = none := by
  simp [atWidth, Nat.not_lt.mpr h]

theorem ioValue_of_has {t : IoType} {i : Nat} (h : t.has i = true) : ioValue t i = some ⟨i, h⟩ := by
  simp [ioValue, h]

theorem ioValue_of_not {t : IoType} {i : Nat} (h : ¬ t.has i = true) : ioValue t i = none := by
  simp [ioValue, h]

theorem ioClip_of_has {t : IoType} {i : Nat} (h : t.has i = true) : ioClip t i = ⟨i, h⟩ := by
  simp [ioClip, ioValue_of_has h]

theorem atWidth_some {w x : Nat} {v : BitVec w} (h : atWidth w x = some v) : x < 2 ^ w ∧ v.toNat = x := by
  unfold atWidth at h
  split at h
  · next hx =>
    cases h
    exact ⟨hx, by simp [Nat.mod_eq_of_lt hx]⟩
  · cases h

theorem State.encGroup_toNat (s : State) : s.encGroup.toNat = s.encV.toNat % 128 := by
  simp [State.encGroup, BitVec.toNat_setWidth]

theorem State.encRest_toNat (s : State) : s.encRest.toNat = s.encV.toNat / 128 := by
  simp [State.encRest, BitVec.toNat_ushiftRight, Nat.shiftRight_eq_div_pow]

theorem State.encMore_eq (s : State) : s.encMore = decide (128 ≤ s.encV.toNat) := by
  have h : (s.encRest = 0) ↔ s.encV.toNat / 128 = 0 := by
    rw [← BitVec.toNat_inj, State.encRest_toNat]
    simp
  simp only [State.encMore, bne, beq_eq_decide, h]
  by_cases hv : 128 ≤ s.encV.toNat
  · simp [hv]
  · simp [hv]
    omega

theorem State.encNext_toNat (s : State) (h : 128 ≤ s.encV.toNat) : s.encNext.toNat = s.encV.toNat / 128 - 1 := by
  have hr := s.encRest_toNat
  have hlt := s.encRest.isLt
  have hw : 1 < 2 ^ s.cfg.wEnc := Nat.one_lt_two_pow (Nat.pos_iff_ne_zero.mp s.cfg.wEnc_pos)
  rw [State.encNext, BitVec.toNat_sub]
  have h1 : (1 : BitVec s.cfg.wEnc).toNat = 1 := by
    change (BitVec.ofNat s.cfg.wEnc 1).toNat = 1
    rw [BitVec.toNat_ofNat, Nat.mod_eq_of_lt hw]
  rw [h1, hr]
  rw [hr] at hlt
  have h2 : 1 ≤ s.encV.toNat / 128 := by omega
  rw [show 2 ^ s.cfg.wEnc - 1 + s.encV.toNat / 128 = s.encV.toNat / 128 - 1 + 2 ^ s.cfg.wEnc by omega,
    Nat.add_mod_right, Nat.mod_eq_of_lt (by omega)]

theorem State.encByte_toNat (s : State) :
    s.encByte.toNat = s.encV.toNat % 128 + (if 128 ≤ s.encV.toNat then 128 else 0) := by
  rw [State.encByte, wireByte_toNat, State.encGroup_toNat, State.encMore_eq]
  simp

/-- TERM is the whole byte at DEC_SHIFT. -/
theorem State.decTerm_eq (s : State) (b : Byte) : s.decTerm b = b.toNat * 2 ^ s.decShift.toNat := by
  have h := b.isLt
  simp only [State.decTerm, payload_toNat, contBit_eq, Nat.shiftLeft_eq, Nat.pow_add]
  by_cases hb : 128 ≤ b.toNat
  · simp only [hb, decide_true, Bool.toNat_true]
    rw [show b.toNat % 128 = b.toNat - 128 by omega, Nat.sub_mul, one_mul, mul_comm (2 ^ _) (2 ^ 7)]
    have : 128 * 2 ^ s.decShift.toNat ≤ b.toNat * 2 ^ s.decShift.toNat := Nat.mul_le_mul_right _ hb
    omega
  · simp [hb]
    omega

theorem State.decSum_eq (s : State) (b : Byte) :
    s.decSum b = s.decResult.toNat + b.toNat * 2 ^ s.decShift.toNat := by
  rw [State.decSum, State.decTerm_eq]

theorem State.ovf_eq (s : State) (b : Byte) :
    s.ovf b = decide (2 ^ s.cfg.wDec ≤ s.decResult.toNat + b.toNat * 2 ^ s.decShift.toNat) := by
  rw [State.ovf, State.decSum_eq]

theorem State.accumulate_result (s : State) (b : Byte) (h : s.ovf b = false) :
    (s.accumulate b).decResult.toNat = s.decResult.toNat + b.toNat * 2 ^ s.decShift.toNat := by
  rw [State.ovf_eq, decide_eq_false_iff_not, Nat.not_le] at h
  exact (State.accumulate_decResult s b).trans (by rw [BitVec.toNat_ofNat, State.decSum_eq, Nat.mod_eq_of_lt h])

/-- DEC_SHIFT + 7 in its register. -/
theorem decShift_add_seven (s : State) :
    (s.decShift + 7 : BitVec s.cfg.sw).toNat = (s.decShift.toNat + 7) % 2 ^ s.cfg.sw := by
  rw [BitVec.toNat_add]
  change (_ + (BitVec.ofNat _ 7).toNat) % _ = _
  rw [BitVec.toNat_ofNat, Nat.add_mod_mod]

/-! The signals of one unit do not see the updates of the other. -/

@[simp] theorem State.beginEnc_ovf (s : State) (v : BitVec s.cfg.wEnc) (c : Byte) : (s.beginEnc v).ovf c = s.ovf c := rfl
@[simp] theorem State.loadNext_ovf (s : State) (c : Byte) : s.loadNext.ovf c = s.ovf c := rfl
@[simp] theorem State.pushSink_ovf (s : State) (b : Byte) (c : Byte) : (s.pushSink b).ovf c = s.ovf c := rfl
@[simp] theorem State.completeOk_enc_ovf (s : State) (c : Byte) : (s.completeOk .enc).ovf c = s.ovf c := rfl
@[simp] theorem State.raise_enc_ovf (s : State) (k : ErrorKind s.cfg.io) (c : Byte) : (s.raise .enc k).ovf c = s.ovf c := rfl

@[simp] theorem State.beginDec_encMore (s : State) : s.beginDec.encMore = s.encMore := rfl
@[simp] theorem State.beginDec_encByte (s : State) : s.beginDec.encByte = s.encByte := rfl
@[simp] theorem State.takeByte_encMore (s : State) (b : Byte) : (s.takeByte b).encMore = s.encMore := rfl
@[simp] theorem State.takeByte_encByte (s : State) (b : Byte) : (s.takeByte b).encByte = s.encByte := rfl
@[simp] theorem State.accumulate_encMore (s : State) (b : Byte) : (s.accumulate b).encMore = s.encMore := rfl
@[simp] theorem State.accumulate_encByte (s : State) (b : Byte) : (s.accumulate b).encByte = s.encByte := rfl
@[simp] theorem State.advanceShift_encMore (s : State) : s.advanceShift.encMore = s.encMore := rfl
@[simp] theorem State.advanceShift_encByte (s : State) : s.advanceShift.encByte = s.encByte := rfl
@[simp] theorem State.completeOk_dec_encMore (s : State) : (s.completeOk .dec).encMore = s.encMore := rfl
@[simp] theorem State.completeOk_dec_encByte (s : State) : (s.completeOk .dec).encByte = s.encByte := rfl
@[simp] theorem State.raise_dec_encMore (s : State) (k : ErrorKind s.cfg.io) : (s.raise .dec k).encMore = s.encMore := rfl
@[simp] theorem State.raise_dec_encByte (s : State) (k : ErrorKind s.cfg.io) : (s.raise .dec k).encByte = s.encByte := rfl

end Sys2Proof.Machine
end

