-- ==== Sys2Proof/Laws/Exec.lean ====
section
/-! SUPPORT. What each meaning can do: one lemma per meaning, "if it answers next t, then one of these holds". -/

namespace Sys2Proof.Machine

theorem execEncStart_next {x : Nat} {s t : State} (h : execEncStart x s = .next t) :
    (s.encPhase = .run ∧ t = s) ∨
    (s.encPhase ≠ .run ∧ x < 2 ^ s.cfg.wEnc ∧ t = s.beginEnc (BitVec.ofNat s.cfg.wEnc x)) := by
  unfold execEncStart at h
  split at h
  · next hp => cases h; exact .inl ⟨hp, rfl⟩
  · next hp =>
    by_cases hx : x < 2 ^ s.cfg.wEnc
    · rw [atWidth_of_lt hx] at h
      cases h
      exact .inr ⟨hp, hx, rfl⟩
    · rw [atWidth_of_le (Nat.not_lt.mp hx)] at h
      cases h

theorem execEncEmitFinal_next {s t : State} (h : execEncEmitFinal s = .next t) :
    (s.encPhase ≠ .run ∧ t = s) ∨
    (s.encPhase = .run ∧ s.encMore = false ∧ t = (s.pushSink s.encByte).completeOk .enc) := by
  unfold execEncEmitFinal at h
  split at h
  · next hp =>
    split at h
    · cases h
    · next hm => cases h; exact .inr ⟨hp, by simpa using hm, rfl⟩
  · next hp => cases h; exact .inl ⟨hp, rfl⟩

theorem execEncEmitCont_next {s t : State} (h : execEncEmitCont s = .next t) :
    (s.encPhase ≠ .run ∧ t = s) ∨
    (s.encPhase = .run ∧ s.encMore = true ∧ t = (s.pushSink s.encByte).loadNext) := by
  unfold execEncEmitCont at h
  split at h
  · next hp =>
    split at h
    · next hm => cases h; exact .inr ⟨hp, hm, rfl⟩
    · cases h
  · next hp => cases h; exact .inl ⟨hp, rfl⟩

theorem execEncAbort_next {info : Nat} {s t : State} (h : execEncAbort info s = .next t) :
    (s.encPhase ≠ .run ∧ t = s) ∨
    (s.encPhase = .run ∧ ∃ hx : s.cfg.io.has info = true, t = s.raise .enc (.ioFailure ⟨info, hx⟩)) := by
  unfold execEncAbort at h
  split at h
  · next hp =>
    by_cases hx : s.cfg.io.has info = true
    · rw [ioValue_of_has hx] at h
      cases h
      exact .inr ⟨hp, hx, rfl⟩
    · rw [ioValue_of_not hx] at h
      cases h
  · next hp => cases h; exact .inl ⟨hp, rfl⟩

theorem execDecStart_next {s t : State} (h : execDecStart s = .next t) :
    (s.decPhase = .run ∧ t = s) ∨
    (s.decPhase ≠ .run ∧ t = s.beginDec) := by
  unfold execDecStart at h
  split at h
  · next hp => cases h; exact .inl ⟨hp, rfl⟩
  · next hp => cases h; exact .inr ⟨hp, rfl⟩

theorem execDecByteFinal_next {g : Payload} {s t : State} (h : execDecByteFinal g s = .next t) :
    (s.decPhase ≠ .run ∧ t = s) ∨
    (s.decPhase = .run ∧ s.ovf (wireByte false g) = false ∧
      t = (s.accumulate (wireByte false g)).completeOk .dec) := by
  unfold execDecByteFinal at h
  split at h
  · next hp =>
    split at h
    · cases h
    · next ho => cases h; exact .inr ⟨hp, by simpa using ho, rfl⟩
  · next hp => cases h; exact .inl ⟨hp, rfl⟩

theorem execDecByteCont_next {g : Payload} {s t : State} (h : execDecByteCont g s = .next t) :
    (s.decPhase ≠ .run ∧ t = s) ∨
    (s.decPhase = .run ∧ s.ovf (wireByte true g) = false ∧
      t = (s.accumulate (wireByte true g)).advanceShift) := by
  unfold execDecByteCont at h
  split at h
  · next hp =>
    split at h
    · cases h
    · next ho => cases h; exact .inr ⟨hp, by simpa using ho, rfl⟩
  · next hp => cases h; exact .inl ⟨hp, rfl⟩

theorem execDecOverflow_next {b : Byte} {s t : State} (h : execDecOverflow b s = .next t) :
    (s.decPhase ≠ .run ∧ t = s) ∨
    (s.decPhase = .run ∧ s.ovf b = true ∧ t = (s.raise .dec .overflow).takeByte b) := by
  unfold execDecOverflow at h
  split at h
  · next hp =>
    split at h
    · next ho => cases h; exact .inr ⟨hp, ho, rfl⟩
    · cases h
  · next hp => cases h; exact .inl ⟨hp, rfl⟩

theorem execDecEof_next {s t : State} (h : execDecEof s = .next t) :
    (s.decPhase ≠ .run ∧ t = s) ∨ (s.decPhase = .run ∧ t = s.raise .dec .truncatedInput) := by
  unfold execDecEof at h
  split at h
  · next hp => cases h; exact .inr ⟨hp, rfl⟩
  · next hp => cases h; exact .inl ⟨hp, rfl⟩

theorem execDecFail_next {info : Nat} {s t : State} (h : execDecFail info s = .next t) :
    (s.decPhase ≠ .run ∧ t = s) ∨
    (s.decPhase = .run ∧ ∃ hx : s.cfg.io.has info = true, t = s.raise .dec (.ioFailure ⟨info, hx⟩)) := by
  unfold execDecFail at h
  split at h
  · next hp =>
    by_cases hx : s.cfg.io.has info = true
    · rw [ioValue_of_has hx] at h
      cases h
      exact .inr ⟨hp, hx, rfl⟩
    · rw [ioValue_of_not hx] at h
      cases h
  · next hp => cases h; exact .inl ⟨hp, rfl⟩

theorem EncKept.refl (s : State) : EncKept s s := ⟨rfl, rfl, rfl, rfl, rfl⟩

theorem EncKept.trans {s t u : State} (a : EncKept s t) (b : EncKept t u) : EncKept s u :=
  ⟨b.phase.trans a.phase, b.value.trans a.value, b.status.trans a.status, b.info.trans a.info, b.sink.trans a.sink⟩

theorem DecKept.refl (s : State) : DecKept s s := ⟨rfl, rfl, rfl, rfl, rfl, rfl⟩

theorem DecKept.trans {s t u : State} (a : DecKept s t) (b : DecKept t u) : DecKept s u :=
  ⟨b.phase.trans a.phase, b.result.trans a.result, b.shift.trans a.shift, b.status.trans a.status,
    b.info.trans a.info, b.taken.trans a.taken⟩

theorem RestKept.refl (s : State) : RestKept s s := ⟨rfl, rfl⟩

theorem RestKept.trans {s t u : State} (a : RestKept s t) (b : RestKept t u) : RestKept s u :=
  ⟨b.cfg.trans a.cfg, b.inputs.trans a.inputs⟩

/-- No operation changes the instance or the coming transfers. -/
theorem exec_keeps_rest {i : Instr} {s t : State} (h : exec i s = .next t) : RestKept s t := by
  cases i with
  | reset => cases h; exact ⟨rfl, rfl⟩
  | encStart x =>
    obtain ⟨-, rfl⟩ | ⟨-, -, rfl⟩ := execEncStart_next h <;> exact ⟨rfl, rfl⟩
  | encEmitFinal =>
    obtain ⟨-, rfl⟩ | ⟨-, -, rfl⟩ := execEncEmitFinal_next h <;> exact ⟨rfl, rfl⟩
  | encEmitCont =>
    obtain ⟨-, rfl⟩ | ⟨-, -, rfl⟩ := execEncEmitCont_next h <;> exact ⟨rfl, rfl⟩
  | encAbort info =>
    obtain ⟨-, rfl⟩ | ⟨-, -, rfl⟩ := execEncAbort_next h <;> exact ⟨rfl, rfl⟩
  | decStart =>
    obtain ⟨-, rfl⟩ | ⟨-, rfl⟩ := execDecStart_next h <;> exact ⟨rfl, rfl⟩
  | decByteFinal g =>
    obtain ⟨-, rfl⟩ | ⟨-, -, rfl⟩ := execDecByteFinal_next h <;> exact ⟨rfl, rfl⟩
  | decByteCont g =>
    obtain ⟨-, rfl⟩ | ⟨-, -, rfl⟩ := execDecByteCont_next h <;> exact ⟨rfl, rfl⟩
  | decOverflow b =>
    obtain ⟨-, rfl⟩ | ⟨-, -, rfl⟩ := execDecOverflow_next h <;> exact ⟨rfl, rfl⟩
  | decEof =>
    obtain ⟨-, rfl⟩ | ⟨-, rfl⟩ := execDecEof_next h <;> exact ⟨rfl, rfl⟩
  | decFail info =>
    obtain ⟨-, rfl⟩ | ⟨-, -, rfl⟩ := execDecFail_next h <;> exact ⟨rfl, rfl⟩

end Sys2Proof.Machine
end

