-- ==== Sys2Proof/Laws/Deliver.lean ====
section
/-! SUPPORT. Reading transfers, selecting operations, and going on from an answer. -/

namespace Sys2Proof.Machine

theorem andThen_eq_next {a : Answer} {f : State → Answer} {t : State} (h : andThen a f = .next t) :
    ∃ u, a = .next u ∧ f u = .next t := by
  cases a with
  | next u => exact ⟨u, rfl, h⟩
  | fault r => cases r
  | refused r => cases h

@[simp] theorem andThen_next (s : State) (f : State → Answer) : andThen (.next s) f = f s := rfl

@[simp] theorem andThen_refused (r : Refusal) (f : State → Answer) : andThen (.refused r) f = .refused r := rfl

theorem srcFailBit_srcWord (f e : Bool) (b : Byte) : srcFailBit (srcWord f e b) = f := by
  simp only [srcFailBit, srcWord, BitVec.getLsbD_append]
  cases f <;> simp

theorem srcEndBit_srcWord (f e : Bool) (b : Byte) : srcEndBit (srcWord f e b) = e := by
  simp only [srcEndBit, srcWord, BitVec.getLsbD_append]
  cases e <;> simp

theorem srcData_srcWord (f e : Bool) (b : Byte) : srcData (srcWord f e b) = b := by
  apply BitVec.eq_of_getLsbD_eq
  intro i hi
  simp only [srcData, srcWord, BitVec.getLsbD_setWidth, BitVec.getLsbD_append]
  simp [hi, show i < 1 + 8 by omega]

/-- A source word with `f = e = 0` delivers its low byte (R78), in the three spellings of R80's patterns. -/
theorem event_byteWord (b : Byte) (info : Nat) : (Transfer.srcRsp (0b00#2 ++ b) info).event = .srcByte b := by
  have h : (0b00#2 ++ b : SrcWord) = srcWord false false b := by decide +revert
  simp only [Transfer.event, h, srcFailBit_srcWord, srcEndBit_srcWord, srcData_srcWord, Bool.false_eq_true, if_false]

theorem event_finalWord (g : Payload) (info : Nat) :
    (Transfer.srcRsp (0b000#3 ++ g) info).event = .srcByte (wireByte false g) := by
  have h : (0b000#3 ++ g : SrcWord) = srcWord false false (wireByte false g) := by decide +revert
  simp only [Transfer.event, h, srcFailBit_srcWord, srcEndBit_srcWord, srcData_srcWord, Bool.false_eq_true, if_false]

theorem event_contWord (g : Payload) (info : Nat) :
    (Transfer.srcRsp (0b001#3 ++ g) info).event = .srcByte (wireByte true g) := by
  have h : (0b001#3 ++ g : SrcWord) = srcWord false false (wireByte true g) := by decide +revert
  simp only [Transfer.event, h, srcFailBit_srcWord, srcEndBit_srcWord, srcData_srcWord, Bool.false_eq_true, if_false]

/-- A source word with `f = 0`, `e = 1` says End whatever its low byte (R78). -/
theorem event_endWord (d : Byte) (info : Nat) : (Transfer.srcRsp (0b01#2 ++ d) info).event = .srcEnd := by
  have h : (0b01#2 ++ d : SrcWord) = srcWord false true d := by decide +revert
  simp only [Transfer.event, h, srcFailBit_srcWord, srcEndBit_srcWord, Bool.false_eq_true, if_false, if_true]

/-- A source word with `f = 1` says Fail whatever its other bits (R78). -/
theorem event_failWord (d : BitVec 9) (info : Nat) : (Transfer.srcRsp (0b1#1 ++ d) info).event = .srcFail info := by
  have h : srcFailBit (0b1#1 ++ d) = true := by decide +revert
  simp only [Transfer.event, h, if_true]

/-- The canonical transfer of an event carries that event. -/
@[simp] theorem event_transfer (e : Event) : e.transfer.event = e := by
  cases e <;>
    simp [Event.transfer, Transfer.event, srcFailBit_srcWord, srcEndBit_srcWord, srcData_srcWord]

/-- What a delivered transfer can do: nothing, or the operation it decodes to. -/
theorem deliver_cases {tr : Transfer} {s t : State} (h : deliver tr s = .next t) :
    ((∃ why, decode (s.signals tr) tr = .noStep why) ∧ t = s) ∨
    ∃ i, decode (s.signals tr) tr = .op i ∧ exec i s = .next t := by
  unfold deliver at h
  split at h
  · next i hd => exact .inr ⟨i, hd, h⟩
  · next why hd => cases h; exact .inl ⟨⟨why, hd⟩, rfl⟩

theorem deliver_keeps_rest {tr : Transfer} {s t : State} (h : deliver tr s = .next t) : RestKept s t := by
  obtain ⟨-, rfl⟩ | ⟨i, -, hi⟩ := deliver_cases h
  · exact ⟨rfl, rfl⟩
  · exact exec_keeps_rest hi

/-- Delivery depends on a transfer only through its event. -/
theorem deliver_event {a b : Transfer} (h : a.event = b.event) (s : State) : deliver a s = deliver b s := by
  simp [deliver, decode, State.signals, h]

/-- Delivery of a transfer is delivery of its event's canonical transfer. -/
theorem deliver_canonical (tr : Transfer) (s : State) : deliver tr s = deliver tr.event.transfer s :=
  deliver_event (by simp) s

/-- What a command to the encoder does, in every state. -/
theorem deliver_encStart (x : Nat) (s : State) :
    deliver (Event.encStart x).transfer s =
      if s.encPhase = .run then .next s
      else if x < 2 ^ s.cfg.wEnc then .next (s.beginEnc (BitVec.ofNat s.cfg.wEnc x))
      else .refused .commandTooWide := by
  by_cases h : s.encPhase = .run
  · simp [deliver, decode, selectOp, State.signals, h]
  · by_cases hx : x < 2 ^ s.cfg.wEnc
    · simp [deliver, decode, selectOp, State.signals, h, exec, execEncStart, atWidth_of_lt hx, hx]
    · simp [deliver, decode, selectOp, State.signals, h, exec, execEncStart, atWidth_of_le (Nat.le_of_not_lt hx), hx]

/-- What the sink's `Accept` does, in every state. -/
theorem deliver_snkAccept (s : State) :
    deliver Event.snkAccept.transfer s =
      if s.encPhase = .run then
        if s.encMore = true then .next (s.pushSink s.encByte).loadNext
        else .next ((s.pushSink s.encByte).completeOk .enc)
      else .next s := by
  by_cases h : s.encPhase = .run
  · cases hm : s.encMore <;>
      simp [deliver, decode, selectOp, State.signals, h, hm, exec, execEncEmitCont, execEncEmitFinal]
  · simp [deliver, decode, selectOp, State.signals, h]

/-- What the sink's `Fail` does, in every state. -/
theorem deliver_snkFail (info : Nat) (s : State) :
    deliver (Event.snkFail info).transfer s =
      if s.encPhase = .run then
        if h : s.cfg.io.has info = true then .next (s.raise .enc (.ioFailure ⟨info, h⟩))
        else .refused .infoTooWide
      else .next s := by
  by_cases h : s.encPhase = .run
  · by_cases hx : s.cfg.io.has info = true
    · simp [deliver, decode, selectOp, State.signals, h, exec, execEncAbort, ioValue_of_has hx, hx]
    · simp [deliver, decode, selectOp, State.signals, h, exec, execEncAbort, ioValue_of_not hx, hx]
  · simp [deliver, decode, selectOp, State.signals, h]

/-- What a command to the decoder does, in every state. -/
theorem deliver_decStart (s : State) :
    deliver Event.decStart.transfer s = if s.decPhase = .run then .next s else .next s.beginDec := by
  by_cases h : s.decPhase = .run
  · simp [deliver, decode, selectOp, State.signals, h]
  · simp [deliver, decode, selectOp, State.signals, h, exec, execDecStart]

/-- What the source's `Byte` does, in every state. -/
theorem deliver_srcByte (b : Byte) (s : State) :
    deliver (Event.srcByte b).transfer s =
      if s.decPhase = .run then
        if s.ovf b = true then .next ((s.raise .dec .overflow).takeByte b)
        else if contBit b = true then .next (s.accumulate b).advanceShift
        else .next ((s.accumulate b).completeOk .dec)
      else .next s := by
  by_cases h : s.decPhase = .run
  · have hw := wireByte_parts b
    cases ho : s.ovf b
    · cases hc : contBit b <;> rw [hc] at hw <;>
        simp [deliver, decode, selectOp, State.signals, exec, execDecByteCont, execDecByteFinal, ho, hc, h] <;>
        simp [hw, ho]
    · simp [deliver, decode, selectOp, State.signals, h, ho, exec, execDecOverflow]
  · simp [deliver, decode, selectOp, State.signals, h]

/-- What the source's `End` does, in every state. -/
theorem deliver_srcEnd (s : State) :
    deliver Event.srcEnd.transfer s =
      if s.decPhase = .run then .next (s.raise .dec .truncatedInput) else .next s := by
  by_cases h : s.decPhase = .run
  · simp [deliver, decode, selectOp, State.signals, h, exec, execDecEof]
  · simp [deliver, decode, selectOp, State.signals, h]

/-- What the source's `Fail` does, in every state. -/
theorem deliver_srcFail (info : Nat) (s : State) :
    deliver (Event.srcFail info).transfer s =
      if s.decPhase = .run then
        if h : s.cfg.io.has info = true then .next (s.raise .dec (.ioFailure ⟨info, h⟩))
        else .refused .infoTooWide
      else .next s := by
  by_cases h : s.decPhase = .run
  · by_cases hx : s.cfg.io.has info = true
    · simp [deliver, decode, selectOp, State.signals, h, exec, execDecFail, ioValue_of_has hx, hx]
    · simp [deliver, decode, selectOp, State.signals, h, exec, execDecFail, ioValue_of_not hx, hx]
  · simp [deliver, decode, selectOp, State.signals, h]

theorem deliverAll_append (ts us : List Transfer) (s : State) :
    deliverAll (ts ++ us) s = andThen (deliverAll ts s) (deliverAll us) := by
  induction ts generalizing s with
  | nil => rfl
  | cons t ts ih =>
    simp only [List.cons_append, deliverAll]
    cases deliver t s with
    | next u => exact ih u
    | fault r => rfl
    | refused r => rfl

end Sys2Proof.Machine
end

