-- ==== Sys2Proof/Laws/Outputs.lean ====
section
/-! SUPPORT. A unit whose registers are kept shows the same at its ports (spec/10_state.md R34). -/

namespace Sys2Proof.Machine

theorem EncKept.sameOutputs {s t : State} (h : EncKept s t) : SameEncOutputs s t := by
  obtain ⟨hp, hv, hs, hi, _⟩ := h
  have hb : t.encByte = s.encByte := by
    apply BitVec.eq_of_toNat_eq
    rw [State.encByte_toNat, State.encByte_toNat, hv]
  refine ⟨?_, ?_, ?_, ?_, ?_, ?_⟩
  · simp only [State.encReady, hp]
  · simp only [State.encDone, hp]
  · simp [State.encStatusOut, State.encDone, hp, hs]
  · simp only [State.encInfoOut, State.encDone, hp, hs]
    split <;> simp_all
  · simp only [State.snkValid, hp]
  · simp [State.snkData, State.snkValid, hp, hb]

theorem DecKept.sameOutputs {s t : State} (h : DecKept s t) (hc : t.cfg = s.cfg) : SameDecOutputs s t := by
  obtain ⟨hp, hr, hh, hs, hi, _⟩ := h
  refine ⟨?_, ?_, ?_, ?_, ?_, ?_, ?_⟩
  · simp only [State.decReady, hp]
  · simp only [State.decDone, hp]
  · simp [State.decStatusOut, State.decDone, hp, hs]
  · simp only [State.decInfoOut, State.decDone, hp, hs]
    split <;> simp_all
  · simp only [State.decValue, State.decDone, hp, hs]
    split <;> simp_all
  · simp only [State.decCount, State.decDone, hp, hs]
    split <;> simp_all
  · simp only [State.srcReq, hp]

end Sys2Proof.Machine
end

