-- ==== Sys2Proof/Laws/PerInstr.lean ====
section
/-! SUPPORT. Per-instruction laws of the syntax: an operation is well-formed exactly when the transfer that encodes it can
cross its port (spec/00_scope.md R8, R11; spec/30_encoding.md R78, R79, R80). One lemma per constructor. -/

namespace Sys2Proof.Laws.PortFit

open Sys2Proof.Machine

/-- `i` is well-formed at an instance exactly when its encoding fits that instance's ports. -/
def Statement (i : Instr) : Prop := ∀ c : Config, i.wellFormed c = fitsPort c (encode i)

theorem reset : Statement .reset := fun _ => rfl

theorem encStart (x : Nat) : Statement (.encStart x) := fun _ => rfl

theorem encEmitFinal : Statement .encEmitFinal := fun _ => rfl

theorem encEmitCont : Statement .encEmitCont := fun _ => rfl

theorem encAbort (info : Nat) : Statement (.encAbort info) := fun _ => rfl

theorem decStart : Statement .decStart := fun _ => rfl

theorem decByteFinal (g : Payload) : Statement (.decByteFinal g) := fun c => by
  simp only [fitsPort, encode, event_finalWord]
  rfl

theorem decByteCont (g : Payload) : Statement (.decByteCont g) := fun c => by
  simp only [fitsPort, encode, event_contWord]
  rfl

theorem decOverflow (b : Byte) : Statement (.decOverflow b) := fun c => by
  simp only [fitsPort, encode, event_byteWord]
  rfl

theorem decEof : Statement .decEof := fun _ => rfl

theorem decFail (info : Nat) : Statement (.decFail info) := fun _ => rfl

end Sys2Proof.Laws.PortFit
end

