-- ==== Sys2Proof/Tests/Slice0.lean ====
section
/-! SUPPORT. Tests of the model against the spec's own examples and tables, and, for every statement with hypotheses, a
concrete state and operands that meet all of them together (`test_meets_…`). Expected values are the spec's, cited per
test. -/

namespace Sys2Proof.Tests

open Sys2Proof Sys2Proof.Machine

/-! Small instances and states. -/

def inst (w fw : Nat) (h : 0 < w := by decide) : Config := { wEnc := w, wDec := w, io := .bits fw, wEnc_pos := h, wDec_pos := h }

/-- The encoder in phase `p` with `v` in ENC_V. -/
def encAt (c : Config) (p : Phase) (v : Nat) : State :=
  { State.resetOf c with encPhase := p, encV := BitVec.ofNat c.wEnc v }

/-- The decoder in phase `p` with `r` in DEC_RESULT and `sh` in DEC_SHIFT, after consuming `bs`. -/
def decAt (c : Config) (p : Phase) (r sh : Nat) (bs : List Byte) : State :=
  { State.resetOf c with
    decPhase := p, decResult := BitVec.ofNat c.wDec r, decShift := BitVec.ofNat c.sw sh, sourceTaken := bs }

/-- What holds of the next state, where there is one. -/
def onNext (a : Answer) (p : State → Bool) : Bool :=
  match a with
  | .next s => p s
  | .fault _ => false
  | .refused _ => false

/-- The signals with both units running, MORE and OVF as given. -/
def running (more ovf : Bool) : Signals := { encRun := true, more := more, decRun := true, ovf := ovf }

/-- The signals with both units at rest. -/
def resting : Signals := { encRun := false, more := false, decRun := false, ovf := false }

/-- The same widths, with failure descriptions of another type. -/
def withInfo (c : Config) (t : IoType) : Config := { c with io := t }

/-- Two failure descriptions of the environment's own. -/
inductive Reason where
  | diskFull
  | linkDown
deriving DecidableEq, Repr

/-- Their numbers. -/
def reasonCoding : Coding Reason (.finite 1) where
  code := fun x => match x with
    | .diskFull => 0
    | .linkDown => 1
  name := fun i => if i = 0 then .diskFull else .linkDown
  code_has := fun x => by cases x <;> rfl
  name_code := fun x => by cases x <;> rfl

/-- No wire raised. -/
def quiet : Pins where
  rst := false
  encCmdValid := false
  encCmdValue := 0
  snkReady := false
  snkFail := false
  snkInfo := 0
  decCmdValid := false
  srcValid := false
  srcData := 0
  srcEof := false
  srcFail := false
  srcInfo := 0

/-! WellFormed refuses an ill-formed term of each check (R8, R11, R101). -/

theorem test_wellFormed_encStart :
    (Instr.encStart 255).wellFormed (inst 8 4) = true ∧ (Instr.encStart 256).wellFormed (inst 8 4) = false := by decide

theorem test_wellFormed_encAbort :
    (Instr.encAbort 15).wellFormed (inst 8 4) = true ∧ (Instr.encAbort 16).wellFormed (inst 8 4) = false := by decide

theorem test_wellFormed_decFail :
    (Instr.decFail 0).wellFormed (inst 8 0) = true ∧ (Instr.decFail 1).wellFormed (inst 8 0) = false := by decide

/-- R11: IoInfo with finitely many values, and with infinitely many. -/
theorem test_wellFormed_ioType :
    (Instr.encAbort 2).wellFormed (withInfo (inst 8 8) (.finite 2)) = true ∧
      (Instr.encAbort 3).wellFormed (withInfo (inst 8 8) (.finite 2)) = false ∧
      (Instr.decFail (2 ^ 70)).wellFormed (withInfo (inst 8 8) .countable) = true := by decide

/-! Decoding of words written out from R78 and R80; the SRCRSP10 words with data 0x05 or 0x85 are table T9's. -/

theorem test_decode_reset : decode (running true true) .rst = .op .reset := by decide

theorem test_decode_encStart :
    decode resting (.encCmd 0x4080) = .op (.encStart 0x4080) ∧
      decode (running true false) (.encCmd 1) = .noStep .encBusy := by decide

theorem test_decode_encEmitFinal :
    decode (running false false) (.snkRsp 0b0#1 9) = .op .encEmitFinal ∧
      decode resting (.snkRsp 0b0#1 0) = .noStep .nothingOffered := by decide

theorem test_decode_encEmitCont : decode (running true false) (.snkRsp 0b0#1 9) = .op .encEmitCont := by decide

theorem test_decode_encAbort :
    decode (running true false) (.snkRsp 0b1#1 9) = .op (.encAbort 9) ∧
      decode (running false false) (.snkRsp 0b1#1 9) = .op (.encAbort 9) := by decide

theorem test_decode_decStart :
    decode resting .decCmd = .op .decStart ∧ decode (running false false) .decCmd = .noStep .decBusy := by decide

theorem test_decode_decByteFinal :
    decode (running false false) (.srcRsp 0b0000000101#10 0) = .op (.decByteFinal 0b0000101#7) := by decide

theorem test_decode_decByteCont :
    decode (running false false) (.srcRsp 0b0010000101#10 0) = .op (.decByteCont 0b0000101#7) := by decide

theorem test_decode_decOverflow :
    decode (running false true) (.srcRsp 0b0000000101#10 0) = .op (.decOverflow 0x05#8) ∧
      decode (running false true) (.srcRsp 0b0010000101#10 0) = .op (.decOverflow 0x85#8) := by decide

theorem test_decode_decEof :
    decode (running false true) (.srcRsp 0b0100000101#10 0) = .op .decEof ∧
      decode resting (.srcRsp 0b0100000101#10 0) = .noStep .nothingRequested := by decide

theorem test_decode_decFail :
    decode (running false true) (.srcRsp 0b1000000101#10 7) = .op (.decFail 7) ∧
      decode (running false true) (.srcRsp 0b1111111111#10 7) = .op (.decFail 7) := by decide

/-- Bare table words, read as notes/assumptions/11.md says. -/
theorem test_decodeTableWord :
    decodeTableWord 8 0 = some .encEmitFinal ∧ decodeTableWord 8 1 = some (.encAbort 0) ∧
      decodeTableWord 16 0x005 = some (.decByteFinal 5) ∧ decodeTableWord 16 0x085 = some (.decByteCont 5) ∧
      decodeTableWord 16 0x100 = some .decEof ∧ decodeTableWord 16 0x200 = some (.decFail 0) ∧
      decodeTableWord 16 0x400 = none ∧ decodeTableWord 0 0 = none := by decide

/-! Reset and each operation, one step each. -/

/-- R35: the state after reset. -/
theorem test_reset_state :
    State.reset.encPhase = .idle ∧ State.reset.decPhase = .idle ∧ State.reset.encStatus.code = 0 ∧
      State.reset.decStatus.code = 0 := by decide

/-- R200: RESET in RUN abandons the operation; the sink keeps what it accepted. -/
theorem test_exec_reset :
    onNext (exec .reset { encAt (inst 16 8) .run 128 with sinkStream := [0x80#8] }) (fun t =>
      t.encPhase == .idle && t.decPhase == .idle && t.encStatus == .ok && t.sinkStream == [0x80#8]) = true := by
  decide

/-- R91's example: `ENC.START 0x4080` at W = 16. -/
theorem test_exec_encStart :
    onNext (exec (.encStart 0x4080) (State.resetOf (inst 16 8))) (fun t =>
      t.encV.toNat == 0x4080 && t.encPhase == .run && t.snkValid && t.snkData == some 0x80#8) = true := by decide

/-- R92's example: the final byte of 127. -/
theorem test_exec_encEmitFinal :
    onNext (exec .encEmitFinal (encAt (inst 16 8) .run 0x7F)) (fun t =>
      t.sinkStream == [0x7F#8] && t.encPhase == .done && t.encStatus == .ok) = true := by decide

/-- R93's example: 16512 becomes 128 and the byte is 0x80. -/
theorem test_exec_encEmitCont :
    onNext (exec .encEmitCont (encAt (inst 16 8) .run 16512)) (fun t =>
      t.sinkStream == [0x80#8] && t.encPhase == .run && t.encV.toNat == 128) = true := by decide

/-- Table T7, W = 8, step 2: the remaining value may become 0. -/
theorem test_exec_encEmitCont_to_zero :
    onNext (exec .encEmitCont (encAt (inst 8 8) .run 0xFF)) (fun t =>
      t.sinkStream == [0xFF#8] && t.encPhase == .run && t.encV.toNat == 0) = true := by decide

/-- Table T9, row 1: a failure on the first byte. -/
theorem test_exec_encAbort :
    onNext (exec (.encAbort 0xE1) (encAt (inst 16 8) .run 5)) (fun t =>
      t.encPhase == .done && t.encStatus.code == 3 && t.encInfo.val == 0xE1 && t.encV.toNat == 5 &&
        t.sinkStream == []) = true := by decide

/-- R126, step 1, from DONE with an old status. -/
theorem test_exec_decStart :
    onNext (exec .decStart { decAt (inst 16 8) .done 77 14 [] with decStatus := .overflow }) (fun t =>
      t.decResult.toNat == 0 && t.decShift.toNat == 0 && t.decPhase == .run && t.decStatus == .overflow &&
        t.decStatusOut == none) = true := by decide

/-- R112's example: 255 at shift 7 and the byte 0x01 give 383 with count 2. -/
theorem test_exec_decByteFinal :
    onNext (exec (.decByteFinal 0x01) (decAt (inst 16 8) .run 255 7 [0xFF#8])) (fun t =>
      t.decResult.toNat == 0x17F && t.decPhase == .done && t.decStatusOut == some 0 &&
        t.decCount.map BitVec.toNat == some 2) = true := by decide

/-- R113's example: the byte 0x80 adds 128. -/
theorem test_exec_decByteCont :
    onNext (exec (.decByteCont 0x00) (decAt (inst 16 8) .run 0 0 [])) (fun t =>
      t.decResult.toNat == 128 && t.decShift.toNat == 7 && t.decPhase == .run) = true := by decide

/-- Table T8, W = 32, step 5. -/
theorem test_exec_decByteCont_deep :
    onNext (exec (.decByteCont 0x7E) (decAt (inst 32 8) .run 0x3FFFFF 21 [])) (fun t =>
      t.decResult.toNat == 0x1FFFFFFF && t.decShift.toNat == 28) = true := by decide

/-- R114's example: W = 8, 128 at shift 7 and the byte 0x01. -/
theorem test_exec_decOverflow :
    onNext (exec (.decOverflow 0x01#8) (decAt (inst 8 8) .run 128 7 [0x80#8])) (fun t =>
      t.decPhase == .done && t.decStatus.code == 2 && t.decValue == none && t.sourceTaken == [0x80#8, 0x01#8])
      = true := by decide

/-- R115's example. -/
theorem test_exec_decEof :
    onNext (exec .decEof (decAt (inst 16 8) .run 128 7 [0x80#8])) (fun t =>
      t.decPhase == .done && t.decStatus.code == 1 && t.decValue == none && t.decCount == none &&
        t.sourceTaken == [0x80#8]) = true := by decide

/-- R116's example, and an operand of full width. -/
theorem test_exec_decFail :
    onNext (exec (.decFail 0xE7) (decAt (inst 16 8) .run 0 0 [])) (fun t =>
      t.decPhase == .done && t.decStatus.code == 3 && t.decInfo.val == 0xE7) = true := by decide

/-- Table T6: for W of at most 7 the byte 0x80 alone overflows (90_conflicts.md C14). -/
theorem test_deliver_overflow_at_seven_bits :
    onNext (deliver (.srcRsp 0b0010000000#10 0) (decAt (inst 7 8) .run 0 0 [])) (fun t =>
      t.decPhase == .done && t.decStatusOut == some 2) = true := by decide

/-- Table T10, row 1: a command offered in RUN changes nothing. -/
theorem test_deliver_command_in_run :
    onNext (deliver (.encCmd 1) (encAt (inst 16 8) .run 0x4080)) (fun t =>
      t.encV.toNat == 0x4080 && t.encPhase == .run && !t.encReady) = true := by decide

/-- R36 to R38: one edge may complete a transfer of each unit. -/
theorem test_edge_both_units :
    onNext (edge { quiet with encCmdValid := true, encCmdValue := 5, srcValid := true, srcData := 0x85#8 }
      (decAt (inst 16 8) .run 0 0 [])) (fun t =>
        t.encPhase == .run && t.encV.toNat == 5 && t.decResult.toNat == 0x85 && t.decShift.toNat == 7) = true := by
  decide

/-- Tables T3 and T2: the source's examples. -/
theorem test_enc :
    enc 127 = [0x7F#8] ∧ enc 128 = [0x80#8, 0x00#8] ∧ enc 0x17F = [0xFF#8, 0x01#8] := by decide

theorem test_decW :
    decW 8 [0x80#8, 0x00#8] = .ok 128 2 ∧ decW 8 [0x80#8, 0x01#8] = .ovf 2 ∧ decW 8 [0x80#8] = .trunc ∧
      decW 16 [0xFF#8, 0xFE#8, 0x82#8, 0x00#8] = .ovf 3 := by decide

/-- R81: the script notation, with a comment, both number forms, and lines that spell no event. -/
theorem test_script :
    lineEvent (fun _ => 7) "ENC.START 0x4080 ; host" = some (.encStart 0x4080) ∧
      lineEvent (fun _ => 7) "ENC.START 127" = some (.encStart 127) ∧
      lineEvent (fun _ => 7) "SRC.BYTE 0x8F" = some (.srcByte 0x8F#8) ∧
      lineEvent (fun _ => 7) "SNK.FAIL e1" = some (.snkFail 7) ∧
      lineEvent (fun _ => 7) "SRC.BYTE 5" = none ∧ lineEvent (fun _ => 7) "RESET 1" = none := by decide

/-- R11 with R94 and R116: a description of the environment's own type, read back from both units. -/
theorem test_description_of_any_type :
    onNext (deliver (sinkFails reasonCoding .linkDown) (encAt (withInfo (inst 8 8) (.finite 1)) .run 5))
        (fun t => t.encInfoAs reasonCoding == some .linkDown) = true ∧
      onNext (deliver (sourceFails reasonCoding .diskFull) (decAt (withInfo (inst 8 8) (.finite 1)) .run 0 0 []))
        (fun t => t.decInfoAs reasonCoding == some .diskFull) = true := by decide

/-- R215: at rest with no command the run has ended, unasked answers or not; with a command it has not; in RUN with
nothing coming it is stuck. -/
theorem test_run_ended :
    (encAt (inst 8 8) .done 5).runEnded = true ∧
      ((encAt (inst 8 8) .done 5).offer (.snkRsp 0 0)).runEnded = true ∧
      ((encAt (inst 8 8) .done 5).offer .decCmd).runEnded = false ∧
      (encAt (inst 8 8) .run 5).runEnded = false ∧ (encAt (inst 8 8) .run 5).stuckOnEnvironment = true := by decide

/-! Witnesses: every statement's hypotheses are met together. -/

theorem test_meets_ResetRuns :
    { quiet with rst := true, encCmdValid := true }.rst = true ∧ (State.resetOf (inst 8 8)).encPhase = .idle ∧
      (State.resetOf (inst 8 8)).decPhase = .idle := by decide

theorem test_meets_EncStartRuns :
    ((encAt (inst 8 8) .idle 0).encPhase = .idle ∨ (encAt (inst 8 8) .idle 0).encPhase = .done) ∧
      ((encAt (inst 8 8) .done 0).encPhase = .idle ∨ (encAt (inst 8 8) .done 0).encPhase = .done) ∧
      255 < 2 ^ (encAt (inst 8 8) .done 0).cfg.wEnc := by decide

theorem test_meets_EncEmitFinalRuns :
    (encAt (inst 8 8) .run 127).encPhase = .run ∧ (encAt (inst 8 8) .run 127).encV.toNat / 128 = 0 := by decide

theorem test_meets_EncEmitContRuns :
    (encAt (inst 8 8) .run 128).encPhase = .run ∧ (encAt (inst 8 8) .run 128).encV.toNat / 128 ≠ 0 ∧
      (encAt (inst 8 8) .run 255).encV.toNat / 128 ≠ 0 := by decide

theorem test_meets_EncAbortRuns :
    (encAt (inst 8 8) .run 128).encPhase = .run ∧ (encAt (inst 8 8) .run 128).cfg.io.has 255 = true := by decide

theorem test_meets_DecStartRuns :
    ((decAt (inst 8 8) .idle 1 1 []).decPhase = .idle ∨ (decAt (inst 8 8) .idle 1 1 []).decPhase = .done) ∧
      ((decAt (inst 8 8) .done 1 1 []).decPhase = .idle ∨ (decAt (inst 8 8) .done 1 1 []).decPhase = .done) := by
  decide

/-- The largest sum that fits. -/
theorem test_meets_DecByteFinalRuns :
    let s := decAt (inst 8 8) .run 255 7 [0xFF#8]
    s.decPhase = .run ∧ s.decResult.toNat + (0#7).toNat * 2 ^ s.decShift.toNat < 2 ^ s.cfg.wDec := by decide

/-- The largest sum that fits, at shift 0. -/
theorem test_meets_DecByteContRuns :
    let s := decAt (inst 8 8) .run 0 0 []
    s.decPhase = .run ∧ s.decShift.toNat % 7 = 0 ∧ s.decShift.toNat + 7 < 2 ^ s.cfg.sw ∧
      s.decResult.toNat + ((127#7).toNat + 128) * 2 ^ s.decShift.toNat < 2 ^ s.cfg.wDec := by decide

/-- The least sum that overflows. -/
theorem test_meets_DecOverflowRuns :
    let s := decAt (inst 8 8) .run 128 7 [0x80#8]
    s.decPhase = .run ∧ 2 ^ s.cfg.wDec ≤ s.decResult.toNat + (0x01#8).toNat * 2 ^ s.decShift.toNat := by decide

theorem test_meets_DecEofRuns : (decAt (inst 8 8) .run 0 0 []).decPhase = .run := rfl

theorem test_meets_DecFailRuns :
    (decAt (inst 8 0) .run 0 0 []).decPhase = .run ∧ (decAt (inst 8 0) .run 0 0 []).cfg.io.has 0 = true := by decide

/-- One word for each branch of the source's chain, at result 255 and shift 7 of W = 8. -/
theorem test_meets_OperationMapSelects :
    let s := decAt (inst 8 8) .run 255 7 []
    (0b1100000000#10).toNat / 512 = 1 ∧ (0b0100000000#10).toNat / 256 = 1 ∧
      (2 ^ s.cfg.wDec ≤ s.decResult.toNat + (0b0010000000#10).toNat * 2 ^ s.decShift.toNat) ∧
      ¬ (2 ^ s.cfg.wDec ≤ s.decResult.toNat + (0b0000000000#10).toNat * 2 ^ s.decShift.toNat) ∧
      (0b0010000000#10).toNat / 128 = 1 := by decide

/-- For EventsWithoutStepChangeNothing and OperationsOutOfPhaseChangeNothing. -/
theorem test_meets_EventsWithoutStep :
    (encAt (inst 8 8) .run 0).encPhase = .run ∧ (encAt (inst 8 8) .done 0).encPhase ≠ .run ∧
      (decAt (inst 8 8) .run 0 0 []).decPhase = .run ∧ (decAt (inst 8 8) .idle 0 0 []).decPhase ≠ .run := by decide

theorem test_meets_SiblingOperations :
    let s := decAt (inst 8 8) .run 128 7 [0x80#8]
    (encAt (inst 8 8) .run 128).encV.toNat / 128 ≠ 0 ∧ (encAt (inst 8 8) .run 127).encV.toNat / 128 = 0 ∧
      2 ^ s.cfg.wDec ≤ s.decResult.toNat + (1#7).toNat * 2 ^ s.decShift.toNat ∧
      2 ^ s.cfg.wDec ≤ s.decResult.toNat + ((0#7).toNat + 128) * 2 ^ s.decShift.toNat ∧
      s.decResult.toNat + (0#8).toNat * 2 ^ s.decShift.toNat < 2 ^ s.cfg.wDec := by decide

theorem test_meets_OperandsTooWide :
    (encAt (inst 8 4) .idle 0).encPhase ≠ .run ∧ 2 ^ (encAt (inst 8 4) .idle 0).cfg.wEnc ≤ 256 ∧
      (encAt (inst 8 4) .run 0).encPhase = .run ∧ (encAt (inst 8 4) .run 0).cfg.io.has 16 = false ∧
      (decAt (inst 8 4) .run 0 0 []).decPhase = .run := by decide

theorem test_meets_StepRunsDecoded :
    let s := { State.resetOf (inst 8 8) with inputs := [.encCmd 255, .snkRsp 0 0] }
    decode (s.signals (.encCmd 255)) (.encCmd 255) = .op (.encStart 255) ∧
      decode (s.signals (.snkRsp 0 0)) (.snkRsp 0 0) = .noStep .nothingOffered ∧
      (State.resetOf (inst 8 8)).inputs = [] := by decide

theorem test_meets_DecodeEncodeAgree :
    (Instr.decOverflow 0xFF#8).selectedUnder (running true true) = true ∧
      decode (running true true) (.srcRsp 0b0011111111#10 3) = .op (.decOverflow 0xFF#8) := by decide

theorem test_meets_TableWordRunsNext :
    8 ≤ (State.resetOf (inst 8 8)).cfg.wDec ∧ decodeTableWord 16 0x0FF = some (.decByteCont 127) := by decide

/-- R90 at W = 7 and with MORE = 1. -/
theorem test_meets_EncoderDatapath :
    (encAt (inst 8 8) .run 128).encMore = true ∧ (encAt (inst 7 8) .run 127).cfg.wEnc ≤ 7 := by decide

theorem test_meets_DecoderDatapath :
    (decAt (inst 8 8) .run 255 7 []).decShift.toNat < (decAt (inst 8 8) .run 255 7 []).cfg.wDec := by decide

/-- R10 at W = 8: SHIFT_MAX = 7 < 2^3, NMAX = 2 < 2^2. -/
theorem test_meets_DerivedConstants : 0 < 8 ∧ 1 ≤ 3 ∧ shiftMax 8 < 2 ^ 3 ∧ nmax 8 < 2 ^ 2 := by decide

/-- A decode in DONE and an encode in DONE, each with an event of the other unit and one of its own. -/
theorem test_meets_OutcomeHeldUntilStart :
    (∃ t, deliver (.encCmd 1) (decAt (inst 8 8) .done 5 0 []) = .next t) ∧
      (∃ t, deliver (.snkRsp 1 3) (encAt (inst 8 8) .done 5) = .next t) ∧
      (decAt (inst 8 8) .done 5 0 []).decPhase = .done ∧ (encAt (inst 8 8) .done 5).encPhase = .done :=
  ⟨⟨_, rfl⟩, ⟨_, rfl⟩, rfl, rfl⟩

/-- After the byte 0x80 at W = 8: the shift is SHIFT_MAX. -/
theorem test_runInv : (decAt (inst 8 8) .run 128 7 [0x80#8]).Inv where
  encStatus := .inl rfl
  decRun := fun _ => ⟨1, by decide⟩
  decDone := fun h => absurd h (by decide)

theorem test_meets_RunningDecodeBounds :
    (decAt (inst 8 8) .run 128 7 [0x80#8]).Inv ∧ (decAt (inst 8 8) .run 128 7 [0x80#8]).decPhase = .run ∧
      (decAt (inst 8 8) .run 128 7 [0x80#8]).decShift.toNat = shiftMax 8 ∧ isCont 0x80#8 = true :=
  ⟨test_runInv, by decide⟩

/-- The same state with the byte 0x00 coming. -/
theorem test_meets_StepKeepsReachableInv :
    ∃ t, ((decAt (inst 8 8) .run 128 7 [0x80#8]).offer (.srcRsp 0b0000000000#10 0)).Inv ∧
      step ((decAt (inst 8 8) .run 128 7 [0x80#8]).offer (.srcRsp 0b0000000000#10 0)) = .next t :=
  ⟨_, ⟨.inl rfl, fun _ => ⟨1, by decide⟩, fun h => absurd h (by decide)⟩, rfl⟩

/-- After the bytes 80 00 at W = 8. -/
theorem test_meets_CountIsBytesConsumed :
    (decAt (inst 8 8) .done 128 7 [0x80#8, 0x00#8]).Inv ∧
      (decAt (inst 8 8) .done 128 7 [0x80#8, 0x00#8]).decPhase = .done ∧
      (decAt (inst 8 8) .done 128 7 [0x80#8, 0x00#8]).decStatus = .ok :=
  ⟨⟨.inl rfl, fun h => absurd h (by decide), fun _ _ => ⟨1, by decide⟩⟩, by decide⟩

theorem test_meets_ReachableStates :
    let s := { State.resetOf (inst 8 8) with inputs := [.decCmd] }
    s.encPhase = .idle ∧ s.decPhase = .idle ∧ s.encStatus = .ok ∧ s.decStatus = .ok ∧
      onNext (core.run 1 s) (fun t => t.decPhase == .run) = true := by decide

theorem test_meets_ReachableInvAtReset : ∃ t, exec .reset (encAt (inst 8 8) .run 5) = .next t := ⟨_, rfl⟩

/-- R34, table P1 row 15: value 128 with count 2, below 2^CW. -/
theorem test_meets_PortsShowRegisters :
    let s := decAt (inst 8 8) .done 128 7 [0x80#8, 0x00#8]
    s.decPhase = .done ∧ s.decStatus.code = 0 ∧ s.decShift.toNat / 7 + 1 < 2 ^ s.cfg.cw ∧
      ¬ ((decAt (inst 8 8) .run 128 7 []).decPhase = .done ∧ (decAt (inst 8 8) .run 128 7 []).decStatus.code = 0) := by
  decide

theorem test_meets_PresentableRunsNeverStop :
    ∀ t ∈ [Transfer.encCmd 255, Transfer.snkRsp 1 255], fitsPort (inst 8 8) t = true := by decide

theorem test_meets_AnswersMakeProgress :
    (encAt (inst 8 8) .run 255).encPhase = .run ∧ fitsPort (inst 8 8) (.snkRsp 0 0) = true ∧
      (decAt (inst 8 8) .run 0 0 []).decPhase = .run ∧ (decAt (inst 8 8) .run 0 0 []).decShift.toNat % 7 = 0 ∧
      fitsPort (inst 8 8) (.srcRsp 0b1000000000#10 255) = true := by decide

theorem test_meets_UnitsIndependent :
    (∃ t, deliver (.encCmd 5) (State.resetOf (inst 8 8)) = .next t) ∧
      (∃ t, deliver .decCmd (State.resetOf (inst 8 8)) = .next t) ∧
      fitsPort (inst 8 8) .decCmd = true := ⟨⟨_, rfl⟩, ⟨_, rfl⟩, rfl⟩

theorem test_meets_EdgeMakesTransfers : quiet.rst = false ∧ { quiet with rst := true }.rst = true := ⟨rfl, rfl⟩

theorem test_meets_EncRecursion : 127 < 128 ∧ 128 ≤ 128 := by decide

theorem test_meets_RoundTrip : 255 < 2 ^ 8 := by decide

theorem test_meets_InverseRoundTrip : decInf [0x80#8, 0x00#8, 0x55#8] = .ok 128 2 := by decide

theorem test_meets_CanonicalCode :
    enc 128 = enc 128 ∧ isEncoding [0x80#8, 0x00#8] = true ∧ decW 8 [0x80#8, 0x00#8] = .ok 128 2 := by decide

theorem test_meets_LengthBands : (enc 127).length = 0 + 1 ∧ (enc 128).length = 1 + 1 ∧ 127 ≤ 128 := by decide

theorem test_meets_LongestEncoding : 0 < 7 ∧ 127 < 2 ^ 7 := by decide

theorem test_meets_ClosedForm : (enc 128).length = 1 + 1 ∧ 1 ≤ 1 := by decide

theorem test_meets_PrefixFree :
    enc 128 <+: enc 128 ∧ [0, 128].flatMap enc = [0, 128].flatMap enc := ⟨List.prefix_refl _, rfl⟩

theorem test_meets_WidthLimitedDecoding :
    (decInf [0xFF#8, 0x00#8] = .ok 255 2 ∧ 255 < 2 ^ 8) ∧ (decInf [0x80#8, 0x01#8] = .ok 256 2 ∧ 2 ^ 8 ≤ 256) ∧
      decInf [0x80#8, 0x80#8] = .trunc := by decide

/-- After one accepted byte of 255 at W = 8 the encode still runs. -/
theorem test_meets_RunningEncodeBound :
    (State.resetOf (inst 8 8)).encPhase ≠ .run ∧ 255 < 2 ^ (State.resetOf (inst 8 8)).cfg.wEnc ∧
      onNext (deliverAll (.encCmd 255 :: List.replicate 1 Event.snkAccept.transfer) (State.resetOf (inst 8 8)))
        (fun t => t.encPhase == .run) = true := by decide

theorem test_meets_EncoderAgreesWithEnc :
    (State.resetOf (inst 8 8)).encPhase ≠ .run ∧ 255 < 2 ^ (State.resetOf (inst 8 8)).cfg.wEnc ∧
      1 < (enc 255).length ∧ (State.resetOf (inst 8 8)).cfg.io.has 255 = true := by decide

theorem test_meets_EncodeEndsWithinBound :
    (encAt (inst 8 8) .done 0).encPhase ≠ .run ∧ 255 < 2 ^ (encAt (inst 8 8) .done 0).cfg.wEnc ∧
      [(0#1, 0), (1#1, 255)].length = nmax 8 ∧ ∀ a ∈ [(0#1, 0), (1#1, 255)], (inst 8 8).io.has a.2 = true := by decide

theorem test_meets_DecoderAgreesWithDecW : (decAt (inst 8 8) .done 5 0 []).decPhase ≠ .run := by decide

theorem test_meets_DecodeEndsWithinBound :
    (decAt (inst 8 8) .idle 5 0 []).decPhase ≠ .run ∧
      [(0x080#10, 0), (0x200#10, 255)].length = nmax 8 ∧ ∀ a ∈ [(0x080#10, 0), (0x200#10, 255)], (inst 8 8).io.has a.2 = true := by
  decide

theorem test_meets_LoopBackReturnsValue :
    let s := State.resetOf (inst 8 8)
    s.encPhase ≠ .run ∧ s.decPhase ≠ .run ∧ 255 < 2 ^ s.cfg.wEnc ∧ 255 < 2 ^ s.cfg.wDec := by decide

theorem test_meets_WidthMismatch :
    let s := State.resetOf (inst 8 8)
    s.decPhase ≠ .run ∧ 255 < 2 ^ s.cfg.wDec ∧ 2 ^ s.cfg.wDec ≤ 256 := by decide

theorem test_meets_SinkStreamConcatenates :
    (State.resetOf (inst 8 8)).encPhase ≠ .run ∧
      ∀ x ∈ [0, 127, 128], x < 2 ^ (State.resetOf (inst 8 8)).cfg.wEnc := by decide

/-- Two states of one instance with different pasts, and runs of both that answer a next state. -/
theorem test_meets_OutcomeForgetsThePast :
    let s := State.resetOf (inst 8 8)
    let s' := { encAt (inst 8 8) .done 9 with decPhase := .done, decStatus := .overflow, sinkStream := [0x09#8] }
    s.cfg = s'.cfg ∧ s.encPhase ≠ .run ∧ s'.encPhase ≠ .run ∧ s.decPhase ≠ .run ∧ s'.decPhase ≠ .run ∧
      onNext (deliverAll [.encCmd 5, .snkRsp 0 0] s) (fun _ => true) = true ∧
      onNext (deliverAll [.encCmd 5, .snkRsp 0 0] s') (fun _ => true) = true ∧
      onNext (deliverAll [.decCmd, .srcRsp 5 0] s) (fun _ => true) = true ∧
      onNext (deliverAll [.decCmd, .srcRsp 5 0] s') (fun _ => true) = true := by decide

theorem test_meets_FailureDescriptionsOfAnyType :
    (encAt (withInfo (inst 8 8) (.finite 1)) .run 5).encPhase = .run ∧
      (decAt (withInfo (inst 8 8) (.finite 1)) .run 0 0 []).decPhase = .run ∧
      Nonempty (Coding Reason (encAt (withInfo (inst 8 8) (.finite 1)) .run 5).cfg.io) :=
  ⟨rfl, rfl, ⟨reasonCoding⟩⟩

theorem test_meets_EveryNumberedTypeIsCovered :
    Nonempty Reason ∧ ∀ x y, reasonCoding.code x = reasonCoding.code y → x = y :=
  ⟨⟨.diskFull⟩, fun x y => by cases x <;> cases y <;> decide⟩

/-- Two instances with different types of descriptions, both encoders in RUN, and two different descriptions. -/
theorem test_meets_DescriptionsNotLookedAt :
    let s := encAt (inst 8 8) .run 5
    let s' := encAt (withInfo (inst 8 8) .countable) .run 5
    SameButInfo (fun a b => b = a + 300) s s' ∧
      sameButInfo (fun a b => b = a + 300) (.encAbort 7) (.encAbort 307) ∧
      (Instr.encAbort 307).wellFormed s'.cfg = true ∧ ∃ t, exec (.encAbort 7) s = .next t := by
  refine ⟨⟨rfl, rfl, rfl, rfl, rfl, ?_, rfl, rfl, rfl, rfl, ?_, rfl, rfl, rfl⟩, ⟨307, rfl, rfl⟩, rfl, ⟨_, rfl⟩⟩ <;>
    intro h <;> cases h

theorem test_meets_RunEndsAtRest :
    (encAt (inst 8 8) .run 5).encPhase = .run ∧ (encAt (inst 8 8) .run 5).inputs = [] ∧
      (decAt (inst 8 8) .run 0 0 []).decPhase = .run := by decide

theorem test_meets_EndedRunStaysEnded :
    let s := (encAt (inst 8 8) .done 5).offer (.snkRsp 0 0)
    s.runEnded = true ∧ s.inputs.head? ≠ some .rst := by decide

/-- The invariant at reset, on one instance. -/
theorem test_resetInv : (State.resetOf (inst 8 8)).Inv where
  encStatus := .inl rfl
  decRun := fun h => absurd h (by decide)
  decDone := fun h => absurd h (by decide)

end Sys2Proof.Tests
end

section
/-! SUPPORT. The scope statements (spec/00_scope.md): the constants derived from a width (R10), the type parameter IoInfo
(R11) and the step (R7). -/

namespace Sys2Proof

/-- `bitsFor m` is the least width that holds `m` (R10). -/
theorem bitsFor_le_iff (m n : Nat) : bitsFor m ≤ n ↔ m < 2 ^ n := by
  unfold bitsFor
  split
  · next hm => simp [hm]
  · next hm => rw [Nat.succ_le_iff, Nat.log2_lt hm]

theorem lt_two_pow_bitsFor (m : Nat) : m < 2 ^ bitsFor m := (bitsFor_le_iff m _).mp le_rfl

/-- NMAX is the ceiling of `w / 7` (R10). -/
theorem nmax_is_ceiling (w : Nat) : w ≤ 7 * nmax w ∧ 7 * nmax w < w + 7 := by
  unfold nmax
  omega

/-- `shiftWidth w` is the least width, 1 at least, that holds SHIFT_MAX (R10). -/
theorem shiftWidth_le_iff (w n : Nat) : shiftWidth w ≤ n ↔ 1 ≤ n ∧ shiftMax w < 2 ^ n := by
  rw [shiftWidth, max_le_iff, bitsFor_le_iff]

namespace Machine

/-! ### The type parameter IoInfo (R11) -/

/-- A type of `last + 1` values is the type parameter `.finite last`. -/
def codingOfEquivFin {IoInfo : Type} {last : Nat} (e : IoInfo ≃ Fin (last + 1)) : Coding IoInfo (.finite last) where
  code x := (e x).val
  name i := e.symm (Fin.ofNat (last + 1) i)
  code_has x := decide_eq_true (Nat.le_of_lt_succ (e x).isLt)
  name_code x := by simp

theorem codingOfEquivFin_code_name {IoInfo : Type} {last : Nat} (e : IoInfo ≃ Fin (last + 1)) (i : Nat)
    (hi : (IoType.finite last).has i = true) : (codingOfEquivFin e).code ((codingOfEquivFin e).name i) = i := by
  have hle : i ≤ last := of_decide_eq_true hi
  simp [codingOfEquivFin, Nat.mod_eq_of_lt (Nat.lt_succ_of_le hle)]

/-- A type of as many values as there are numbers is the type parameter `.countable`. -/
def codingOfEquivNat {IoInfo : Type} (e : IoInfo ≃ Nat) : Coding IoInfo .countable where
  code := e
  name := e.symm
  code_has _ := rfl
  name_code := e.symm_apply_apply

/-- What the sink's `Fail(x)` comes to at a running encoder: error completion with `x`'s number (R94). -/
theorem deliver_sinkFails {IoInfo : Type} {s : State} (k : Coding IoInfo s.cfg.io) (x : IoInfo)
    (hp : s.encPhase = .run) :
    deliver (sinkFails k x) s = .next (s.raise .enc (.ioFailure ⟨k.code x, k.code_has x⟩)) := by
  rw [sinkFails, deliver_snkFail, if_pos hp, dif_pos (k.code_has x)]

/-- What the source's `Fail(x)` comes to at a running decoder: error completion with `x`'s number (R116). -/
theorem deliver_sourceFails {IoInfo : Type} {s : State} (k : Coding IoInfo s.cfg.io) (x : IoInfo)
    (hp : s.decPhase = .run) :
    deliver (sourceFails k x) s = .next (s.raise .dec (.ioFailure ⟨k.code x, k.code_has x⟩)) := by
  rw [sourceFails, deliver_srcFail, if_pos hp, dif_pos (k.code_has x)]

/-! ### Two states that are the same but for their failure descriptions: what the datapaths show, and the updates -/

/-- A free value does not depend on anything but its count, its register and its width. -/
theorem freeValue_toNat_congr {d d' w w' : Nat} (r : FreeReg) (hd : d = d') (hw : w = w') :
    (Config.freeValue d r w).toNat = (Config.freeValue d' r w').toNat := by
  rw [hd, hw]

namespace SameButInfo

section
variable {rel : Nat → Nat → Prop} {s s' t : State}

theorem sw (h : SameButInfo rel s s') : s.cfg.sw = s'.cfg.sw := congrArg shiftWidth h.wDec

theorem encMore (h : SameButInfo rel s s') : s.encMore = s'.encMore := by
  rw [State.encMore_eq, State.encMore_eq, h.encV]

theorem encByte (h : SameButInfo rel s s') : s.encByte = s'.encByte := by
  apply BitVec.eq_of_toNat_eq
  rw [State.encByte_toNat, State.encByte_toNat, h.encV]

theorem encNext (h : SameButInfo rel s s') (hm : s.encMore = true) : s.encNext.toNat = s'.encNext.toNat := by
  have hv : 128 ≤ s.encV.toNat := of_decide_eq_true (s.encMore_eq ▸ hm)
  rw [State.encNext_toNat s hv, State.encNext_toNat s' (h.encV ▸ hv), h.encV]

theorem decSum (h : SameButInfo rel s s') (b : Byte) : s.decSum b = s'.decSum b := by
  rw [State.decSum_eq, State.decSum_eq, h.decResult, h.decShift]

theorem ovf (h : SameButInfo rel s s') (b : Byte) : s.ovf b = s'.ovf b := by
  rw [State.ovf, State.ovf, h.wDec, h.decSum b]

theorem pushSink (h : SameButInfo rel s s') (b : Byte) : SameButInfo rel (s.pushSink b) (s'.pushSink b) :=
  { h with sinkStream := congrArg (· ++ [b]) h.sinkStream }

theorem takeByte (h : SameButInfo rel s s') (b : Byte) : SameButInfo rel (s.takeByte b) (s'.takeByte b) :=
  { h with sourceTaken := congrArg (· ++ [b]) h.sourceTaken }

theorem beginEnc (h : SameButInfo rel s s') {v : BitVec s.cfg.wEnc} {v' : BitVec s'.cfg.wEnc}
    (hv : v.toNat = v'.toNat) : SameButInfo rel (s.beginEnc v) (s'.beginEnc v') :=
  { h with encPhase := rfl, encV := hv, encInfo := fun hp => nomatch hp }

theorem loadNext (h : SameButInfo rel s s') (hm : s.encMore = true) : SameButInfo rel s.loadNext s'.loadNext :=
  { h with encV := h.encNext hm }

theorem beginDec (h : SameButInfo rel s s') : SameButInfo rel s.beginDec s'.beginDec :=
  { h with decPhase := rfl, decResult := rfl, decShift := rfl, decInfo := fun hp => nomatch hp }

theorem accumulate (h : SameButInfo rel s s') (b : Byte) : SameButInfo rel (s.accumulate b) (s'.accumulate b) :=
  { h.takeByte b with
    decResult := by
      show (BitVec.ofNat s.cfg.wDec (s.decSum b)).toNat = (BitVec.ofNat s'.cfg.wDec (s'.decSum b)).toNat
      rw [h.decSum b, h.wDec] }

theorem advanceShift (h : SameButInfo rel s s') : SameButInfo rel s.advanceShift s'.advanceShift :=
  { h with
    decShift := by
      show (s.decShift + 7 : BitVec s.cfg.sw).toNat = (s'.decShift + 7 : BitVec s'.cfg.sw).toNat
      rw [decShift_add_seven, decShift_add_seven, h.decShift, h.sw] }

/-- A unit that completes without error shows no description, so none need be related. -/
theorem completeOk (h : SameButInfo rel s s') : ∀ u : UnitId, SameButInfo rel (s.completeOk u) (s'.completeOk u)
  | .enc => { h with encPhase := rfl, encStatus := rfl, encInfo := fun _ hs => nomatch hs }
  | .dec => { h with decPhase := rfl, decStatus := rfl, decInfo := fun _ hs => nomatch hs }

/-- Error completion by the sink's failure, with related descriptions (R178). -/
theorem raise_enc (h : SameButInfo rel s s') {v : s.cfg.io.Info} {v' : s'.cfg.io.Info} (hv : rel v.val v'.val) :
    SameButInfo rel (s.raise .enc (.ioFailure v)) (s'.raise .enc (.ioFailure v')) :=
  { h with encPhase := rfl, encStatus := rfl, encInfo := fun _ _ => hv }

/-- Error completion at DEC, with the same status and, where a description is shown, related ones (R178). -/
theorem raise_dec (h : SameButInfo rel s s') {k : ErrorKind s.cfg.io} {k' : ErrorKind s'.cfg.io}
    (hs : errorStatus k = errorStatus k')
    (hv : errorStatus k = .ioFailure → rel (errorInfo s.decInfo k).val (errorInfo s'.decInfo k').val) :
    SameButInfo rel (s.raise .dec k) (s'.raise .dec k') :=
  { h with
    decPhase := rfl
    decStatus := hs
    decInfo := fun _ => hv
    decResult := freeValue_toNat_congr .decResult h.draws h.wDec
    decShift := freeValue_toNat_congr .decShift h.draws h.sw
    draws := congrArg (· + 1) h.draws }

/-! ### The operations: where the first state goes on, so does the second, to the same but for the descriptions -/

theorem exec_reset (h : SameButInfo rel s s') (hx : exec .reset s = .next t) :
    ∃ t', exec .reset s' = .next t' ∧ SameButInfo rel t t' := by
  cases hx
  exact ⟨_, rfl,
    { h with
      encPhase := rfl
      encStatus := rfl
      encInfo := fun hp => nomatch hp
      encV := freeValue_toNat_congr .encV h.draws h.wEnc
      decPhase := rfl
      decStatus := rfl
      decInfo := fun hp => nomatch hp
      decResult := freeValue_toNat_congr .decResult h.draws h.wDec
      decShift := freeValue_toNat_congr .decShift h.draws h.sw
      draws := congrArg (· + 1) h.draws }⟩

theorem exec_encStart (h : SameButInfo rel s s') {x : Nat} (hx : exec (.encStart x) s = .next t) :
    ∃ t', exec (.encStart x) s' = .next t' ∧ SameButInfo rel t t' := by
  obtain ⟨hp, rfl⟩ | ⟨hp, hlt, rfl⟩ := execEncStart_next hx <;> rw [h.encPhase] at hp
  · exact ⟨s', if_pos hp, h⟩
  · refine ⟨s'.beginEnc (BitVec.ofNat s'.cfg.wEnc x), ?_, h.beginEnc ?_⟩
    · rw [exec, execEncStart, if_neg hp, atWidth_of_lt (h.wEnc ▸ hlt)]
    · rw [BitVec.toNat_ofNat, BitVec.toNat_ofNat, h.wEnc]

theorem exec_encEmitFinal (h : SameButInfo rel s s') (hx : exec .encEmitFinal s = .next t) :
    ∃ t', exec .encEmitFinal s' = .next t' ∧ SameButInfo rel t t' := by
  obtain ⟨hp, rfl⟩ | ⟨hp, hm, rfl⟩ := execEncEmitFinal_next hx <;> rw [h.encPhase] at hp
  · exact ⟨s', if_neg hp, h⟩
  · rw [h.encByte]
    rw [h.encMore] at hm
    exact ⟨_, by simp [exec, execEncEmitFinal, hp, hm], (h.pushSink _).completeOk .enc⟩

theorem exec_encEmitCont (h : SameButInfo rel s s') (hx : exec .encEmitCont s = .next t) :
    ∃ t', exec .encEmitCont s' = .next t' ∧ SameButInfo rel t t' := by
  obtain ⟨hp, rfl⟩ | ⟨hp, hm, rfl⟩ := execEncEmitCont_next hx <;> rw [h.encPhase] at hp
  · exact ⟨s', if_neg hp, h⟩
  · rw [h.encByte]
    exact ⟨_, by simp [exec, execEncEmitCont, hp, h.encMore ▸ hm], (h.pushSink _).loadNext hm⟩

theorem exec_encAbort (h : SameButInfo rel s s') {a a' : Nat} (ha : rel a a') (hf : s'.cfg.io.has a' = true)
    (hx : exec (.encAbort a) s = .next t) :
    ∃ t', exec (.encAbort a') s' = .next t' ∧ SameButInfo rel t t' := by
  obtain ⟨hp, rfl⟩ | ⟨hp, -, rfl⟩ := execEncAbort_next hx <;> rw [h.encPhase] at hp
  · exact ⟨s', if_neg hp, h⟩
  · exact ⟨_, by rw [exec, execEncAbort, if_pos hp, ioValue_of_has hf], h.raise_enc ha⟩

theorem exec_decStart (h : SameButInfo rel s s') (hx : exec .decStart s = .next t) :
    ∃ t', exec .decStart s' = .next t' ∧ SameButInfo rel t t' := by
  obtain ⟨hp, rfl⟩ | ⟨hp, rfl⟩ := execDecStart_next hx <;> rw [h.decPhase] at hp
  · exact ⟨s', if_pos hp, h⟩
  · exact ⟨_, if_neg hp, h.beginDec⟩

theorem exec_decByteFinal (h : SameButInfo rel s s') {g : Payload} (hx : exec (.decByteFinal g) s = .next t) :
    ∃ t', exec (.decByteFinal g) s' = .next t' ∧ SameButInfo rel t t' := by
  obtain ⟨hp, rfl⟩ | ⟨hp, ho, rfl⟩ := execDecByteFinal_next hx <;> rw [h.decPhase] at hp
  · exact ⟨s', if_neg hp, h⟩
  · rw [h.ovf] at ho
    exact ⟨_, by simp [exec, execDecByteFinal, hp, ho], (h.accumulate _).completeOk .dec⟩

theorem exec_decByteCont (h : SameButInfo rel s s') {g : Payload} (hx : exec (.decByteCont g) s = .next t) :
    ∃ t', exec (.decByteCont g) s' = .next t' ∧ SameButInfo rel t t' := by
  obtain ⟨hp, rfl⟩ | ⟨hp, ho, rfl⟩ := execDecByteCont_next hx <;> rw [h.decPhase] at hp
  · exact ⟨s', if_neg hp, h⟩
  · rw [h.ovf] at ho
    exact ⟨_, by simp [exec, execDecByteCont, hp, ho], (h.accumulate _).advanceShift⟩

theorem exec_decOverflow (h : SameButInfo rel s s') {b : Byte} (hx : exec (.decOverflow b) s = .next t) :
    ∃ t', exec (.decOverflow b) s' = .next t' ∧ SameButInfo rel t t' := by
  obtain ⟨hp, rfl⟩ | ⟨hp, ho, rfl⟩ := execDecOverflow_next hx <;> rw [h.decPhase] at hp
  · exact ⟨s', if_neg hp, h⟩
  · rw [h.ovf] at ho
    have hr : SameButInfo rel (s.raise .dec .overflow) (s'.raise .dec .overflow) :=
      h.raise_dec rfl (fun hs => nomatch hs)
    exact ⟨_, by rw [exec, execDecOverflow, if_pos hp, if_pos ho], hr.takeByte b⟩

theorem exec_decEof (h : SameButInfo rel s s') (hx : exec .decEof s = .next t) :
    ∃ t', exec .decEof s' = .next t' ∧ SameButInfo rel t t' := by
  obtain ⟨hp, rfl⟩ | ⟨hp, rfl⟩ := execDecEof_next hx <;> rw [h.decPhase] at hp
  · exact ⟨s', if_neg hp, h⟩
  · exact ⟨_, if_pos hp, h.raise_dec rfl (fun hs => nomatch hs)⟩

theorem exec_decFail (h : SameButInfo rel s s') {a a' : Nat} (ha : rel a a') (hf : s'.cfg.io.has a' = true)
    (hx : exec (.decFail a) s = .next t) :
    ∃ t', exec (.decFail a') s' = .next t' ∧ SameButInfo rel t t' := by
  obtain ⟨hp, rfl⟩ | ⟨hp, -, rfl⟩ := execDecFail_next hx <;> rw [h.decPhase] at hp
  · exact ⟨s', if_neg hp, h⟩
  · exact ⟨_, by rw [exec, execDecFail, if_pos hp, ioValue_of_has hf],
      h.raise_dec (k' := .ioFailure ⟨a', hf⟩) rfl (fun _ => ha)⟩

end

end SameButInfo

/-- The signals that select an operation do not see the coming transfers. -/
theorem State.signals_inputs (s : State) (ts : List Transfer) (t : Transfer) :
    State.signals { s with inputs := ts } t = s.signals t := rfl

/-- With a transfer coming, a step delivers it to the state without it (R7). -/
theorem step_cons {s : State} {t : Transfer} {rest : List Transfer} (hi : s.inputs = t :: rest) :
    step s = deliver t { s with inputs := rest } := by
  rw [step, hi]

/-- With no transfer coming, the block waits (R95, R117). -/
theorem step_nil {s : State} (hi : s.inputs = []) : step s = .next s := by
  rw [step, hi]

theorem deliver_of_op {t : Transfer} {s : State} {i : Instr} (hd : decode (s.signals t) t = .op i) :
    deliver t s = exec i s := by
  rw [deliver, hd]

theorem deliver_of_noStep {t : Transfer} {s : State} {why : NoStep} (hd : decode (s.signals t) t = .noStep why) :
    deliver t s = .next s := by
  rw [deliver, hd]

end Machine

open Machine

/-- Settles O23: the least widths are `bitsFor_le_iff` read both ways; the table's rows are computed. -/
theorem derivedConstants : Obligations.DerivedConstants := by
  unfold Obligations.DerivedConstants
  refine ⟨fun w _ => ⟨nmax_is_ceiling w, rfl, ?_, lt_two_pow_bitsFor _, fun n => (bitsFor_le_iff _ n).mpr⟩,
    by decide, by decide, by decide, by decide⟩
  obtain ⟨hpos, hlt⟩ := (shiftWidth_le_iff w _).mp le_rfl
  exact ⟨hpos, hlt, fun n hn hm => (shiftWidth_le_iff w n).mpr ⟨hn, hm⟩⟩

/-- Settles O57: a numbered type is finite, and then in bijection with some `Fin (last + 1)`, or it is in bijection with
the numbers. -/
theorem everyNumberedTypeIsCovered : Obligations.EveryNumberedTypeIsCovered := by
  unfold Obligations.EveryNumberedTypeIsCovered
  intro IoInfo f hne hf
  have hinj : Function.Injective f := fun x y => hf x y
  have : Countable IoInfo := hinj.countable
  cases finite_or_infinite IoInfo with
  | inl hfin =>
    obtain ⟨n, ⟨e⟩⟩ := Finite.exists_equiv_fin IoInfo
    cases n with
    | zero => exact (e hne.some).elim0
    | succ last => exact ⟨.finite last, codingOfEquivFin e, codingOfEquivFin_code_name e⟩
  | inr hinf =>
    obtain ⟨e⟩ : Nonempty (IoInfo ≃ Nat) := nonempty_equiv_of_countable
    exact ⟨.countable, codingOfEquivNat e, fun i _ => e.apply_symm_apply i⟩

/-- Settles O58, by the simulation lemma of each operation: the guards and the datapaths read no description, and the two
failures copy theirs. -/
theorem descriptionsNotLookedAt : Obligations.DescriptionsNotLookedAt := by
  unfold Obligations.DescriptionsNotLookedAt
  intro rel s s' t i i' h hi hw hx
  cases i with
  | reset => cases hi; exact h.exec_reset hx
  | encStart x => cases hi; exact h.exec_encStart hx
  | encEmitFinal => cases hi; exact h.exec_encEmitFinal hx
  | encEmitCont => cases hi; exact h.exec_encEmitCont hx
  | encAbort a => obtain ⟨a', rfl, ha⟩ := hi; exact h.exec_encAbort ha hw hx
  | decStart => cases hi; exact h.exec_decStart hx
  | decByteFinal g => cases hi; exact h.exec_decByteFinal hx
  | decByteCont g => cases hi; exact h.exec_decByteCont hx
  | decOverflow b => cases hi; exact h.exec_decOverflow hx
  | decEof => cases hi; exact h.exec_decEof hx
  | decFail a => obtain ⟨a', rfl, ha⟩ := hi; exact h.exec_decFail ha hw hx

/-- Settles O17: the operation is selected by the signals of the state that still holds the transfer, which are those of
the state without it. -/
theorem stepRunsDecoded : Obligations.StepRunsDecoded := by
  unfold Obligations.StepRunsDecoded
  refine fun s => ⟨fun t rest i hs hd => ?_, fun t rest why hs hd => ?_, step_nil⟩
  · rw [step_cons hs, deliver_of_op ((State.signals_inputs s rest t).symm ▸ hd)]
  · rw [step_cons hs, deliver_of_noStep ((State.signals_inputs s rest t).symm ▸ hd)]

/-- Settles O56: the unit records the number of the description, and the number names it. -/
theorem failureDescriptionsOfAnyType : Obligations.FailureDescriptionsOfAnyType := by
  unfold Obligations.FailureDescriptionsOfAnyType
  refine ⟨IoType.has_zero, fun fw i => decide_eq_true_iff, fun IoInfo s k x => ⟨fun hp => ?_, fun hp => ?_⟩⟩
  · exact ⟨_, deliver_sinkFails k x hp, rfl, congrArg some (k.name_code x)⟩
  · exact ⟨_, deliver_sourceFails k x hp, rfl, congrArg some (k.name_code x)⟩

end Sys2Proof
end

section
/-! SUPPORT. A transfer of one unit works on that unit's part of the state only (spec/10_state.md R20, spec/20_memory.md
R65), and what runs keep. -/

namespace Sys2Proof

/-- The unit on whose ports an event comes (R79); RESET is on neither's. -/
def Event.unit : Event → Option Machine.UnitId
  | .reset => none
  | .encStart _ => some .enc
  | .snkAccept => some .enc
  | .snkFail _ => some .enc
  | .decStart => some .dec
  | .srcByte _ => some .dec
  | .srcEnd => some .dec
  | .srcFail _ => some .dec

theorem Event.eq_reset_of_unit {e : Event} (h : e.unit = none) : e = .reset := by
  cases e with
  | reset => rfl
  | encStart | snkAccept | snkFail | decStart | srcByte | srcEnd | srcFail => cases h

theorem event_snkRsp (w : SnkWord) (info : Nat) :
    (Transfer.snkRsp w info).event = .snkAccept ∨ (Transfer.snkRsp w info).event = .snkFail info := by
  simp only [Transfer.event]
  split
  · exact .inr rfl
  · exact .inl rfl

theorem event_srcRsp (w : SrcWord) (info : Nat) :
    (∃ b, (Transfer.srcRsp w info).event = .srcByte b) ∨ (Transfer.srcRsp w info).event = .srcEnd ∨
      (Transfer.srcRsp w info).event = .srcFail info := by
  simp only [Transfer.event]
  split
  · exact .inr (.inr rfl)
  · split
    · exact .inr (.inl rfl)
    · exact .inl ⟨_, rfl⟩

theorem event_unit_snkRsp (w : SnkWord) (info : Nat) : (Transfer.snkRsp w info).event.unit = some .enc := by
  obtain h | h := event_snkRsp w info <;> rw [h] <;> rfl

theorem event_unit_srcRsp (w : SrcWord) (info : Nat) : (Transfer.srcRsp w info).event.unit = some .dec := by
  obtain ⟨b, h⟩ | h | h := event_srcRsp w info <;> rw [h] <;> rfl

namespace Machine

/-! ### Answers and runs -/

theorem andThen_ite (c : Prop) [Decidable c] (a b : Answer) (f : State → Answer) :
    andThen (if c then a else b) f = if c then andThen a f else andThen b f :=
  apply_ite (andThen · f) c a b

theorem andThen_dite (c : Prop) [Decidable c] (a : c → Answer) (b : ¬ c → Answer) (f : State → Answer) :
    andThen (if h : c then a h else b h) f = if h : c then andThen (a h) f else andThen (b h) f :=
  apply_dite (andThen · f) c a b

theorem andThen_congr {a : Answer} {f g : State → Answer} (h : ∀ u, a = .next u → f u = g u) :
    andThen a f = andThen a g := by
  cases a with
  | next u => exact h u rfl
  | fault r => cases r
  | refused r => rfl

theorem run_succ (n : Nat) (s : State) : core.run (n + 1) s = andThen (step s) (core.run n) := by
  have hstep : core.step s = step s := rfl
  simp only [Host.Core.run, hstep]
  cases step s <;> rfl

/-- What every step keeps holds after every run. -/
theorem run_keeps {P : State → Prop} (hstep : ∀ s t, P s → step s = .next t → P t) (n : Nat) {s t : State}
    (hs : P s) (h : core.run n s = .next t) : P t := by
  induction n generalizing s with
  | zero => cases h; exact hs
  | succ n ih =>
    rw [run_succ] at h
    obtain ⟨u, hu, hut⟩ := andThen_eq_next h
    exact ih (hstep s u hs hu) hut

/-- What each of the transfers keeps between two runs holds between their ends. -/
theorem deliverAll_keeps_rel {R : State → State → Prop} {ts : List Transfer}
    (hR : ∀ tr ∈ ts, ∀ s s' t t', R s s' → deliver tr s = .next t → deliver tr s' = .next t' → R t t')
    {s s' t t' : State} (hs : R s s') (h : deliverAll ts s = .next t) (h' : deliverAll ts s' = .next t') : R t t' := by
  induction ts generalizing s s' with
  | nil => cases h; cases h'; exact hs
  | cons tr ts ih =>
    obtain ⟨u, hu, hut⟩ := andThen_eq_next h
    obtain ⟨u', hu', hut'⟩ := andThen_eq_next h'
    exact ih (fun tr htr => hR tr (List.mem_cons_of_mem _ htr)) (hR tr List.mem_cons_self _ _ _ _ hs hu hu') hut hut'

/-! ### One unit's part of the state (R20, R65) -/

/-- `s` with the encoder's registers and the sink stream of `e`. -/
def State.withEncOf (s e : State) : State :=
  { s with
    encPhase := e.encPhase
    encV := BitVec.ofNat s.cfg.wEnc e.encV.toNat
    encStatus := e.encStatus
    encInfo := ioClip s.cfg.io e.encInfo.val
    sinkStream := e.sinkStream }

/-- `s` with all but the encoder's registers and the sink stream as in `d`. -/
def State.withDecOf (s d : State) : State :=
  { s with
    decPhase := d.decPhase
    decResult := BitVec.ofNat s.cfg.wDec d.decResult.toNat
    decShift := BitVec.ofNat s.cfg.sw d.decShift.toNat
    decStatus := d.decStatus
    decInfo := ioClip s.cfg.io d.decInfo.val
    sourceTaken := d.sourceTaken
    inputs := d.inputs
    draws := d.draws }

theorem ioClip_val {t : IoType} (i : t.Info) : ioClip t i.val = i := ioClip_of_has i.property

theorem State.withEncOf_self (s : State) : s.withEncOf s = s := by
  simp [State.withEncOf, ioClip_val]

theorem State.withDecOf_self (s : State) : s.withDecOf s = s := by
  simp [State.withDecOf, ioClip_val]

/-- The two ways to put an encoder's part and a decoder's part together. -/
theorem State.withEncOf_eq_withDecOf {d e : State} (hc : e.cfg = d.cfg) : d.withEncOf e = e.withDecOf d := by
  cases d
  cases e
  cases hc
  simp [State.withEncOf, State.withDecOf, ioClip_val]

/-- A transfer on the encoder's ports sees and changes the encoder's part only. -/
theorem deliver_withDecOf {tr : Transfer} (hu : tr.event.unit = some .enc) (s d : State) :
    deliver tr (s.withDecOf d) = andThen (deliver tr s) (fun t => .next (t.withDecOf d)) := by
  rw [deliver_canonical tr, deliver_canonical tr]
  cases he : tr.event with
  | encStart x => simp only [deliver_encStart, andThen_ite]; rfl
  | snkAccept => simp only [deliver_snkAccept, andThen_ite]; rfl
  | snkFail info => simp only [deliver_snkFail, andThen_ite, andThen_dite]; rfl
  | reset | decStart | srcByte | srcEnd | srcFail => rw [he] at hu; cases hu

/-- A transfer on the decoder's ports sees and changes the decoder's part only. -/
theorem deliver_withEncOf {tr : Transfer} (hu : tr.event.unit = some .dec) (s e : State) :
    deliver tr (s.withEncOf e) = andThen (deliver tr s) (fun t => .next (t.withEncOf e)) := by
  rw [deliver_canonical tr, deliver_canonical tr]
  cases he : tr.event with
  | decStart => simp only [deliver_decStart, andThen_ite]; rfl
  | srcByte b => simp only [deliver_srcByte, andThen_ite]; rfl
  | srcEnd => simp only [deliver_srcEnd, andThen_ite]; rfl
  | srcFail info => simp only [deliver_srcFail, andThen_ite, andThen_dite]; rfl
  | reset | encStart | snkAccept | snkFail => rw [he] at hu; cases hu

theorem eq_withDecOf_of_deliver {tr : Transfer} (hu : tr.event.unit = some .enc) {s t : State}
    (h : deliver tr s = .next t) : t = t.withDecOf s := by
  have hw := deliver_withDecOf hu s s
  rw [State.withDecOf_self, h] at hw
  exact Host.Outcome.next.inj hw

theorem eq_withEncOf_of_deliver {tr : Transfer} (hu : tr.event.unit = some .dec) {s t : State}
    (h : deliver tr s = .next t) : t = t.withEncOf s := by
  have hw := deliver_withEncOf hu s s
  rw [State.withEncOf_self, h] at hw
  exact Host.Outcome.next.inj hw

theorem State.withDecOf_keeps_dec {s t : State} (hc : t.cfg = s.cfg) : DecKept s (t.withDecOf s) := by
  rw [← State.withEncOf_eq_withDecOf hc]
  exact ⟨rfl, rfl, rfl, rfl, rfl, rfl⟩

theorem State.withEncOf_keeps_enc {s t : State} (hc : t.cfg = s.cfg) : EncKept s (t.withEncOf s) := by
  rw [State.withEncOf_eq_withDecOf hc.symm]
  exact ⟨rfl, rfl, rfl, rfl, rfl⟩

/-- A transfer on the encoder's ports leaves the decoder alone. -/
theorem deliver_keeps_dec {tr : Transfer} (hu : tr.event.unit = some .enc) {s t : State}
    (h : deliver tr s = .next t) : DecKept s t := by
  rw [eq_withDecOf_of_deliver hu h]
  exact State.withDecOf_keeps_dec (deliver_keeps_rest h).cfg

/-- A transfer on the decoder's ports leaves the encoder alone. -/
theorem deliver_keeps_enc {tr : Transfer} (hu : tr.event.unit = some .dec) {s t : State}
    (h : deliver tr s = .next t) : EncKept s t := by
  rw [eq_withEncOf_of_deliver hu h]
  exact State.withEncOf_keeps_enc (deliver_keeps_rest h).cfg

/-- The decoder's ports never refuse a transfer that fits them (R175). -/
theorem deliver_dec_answers {tr : Transfer} (hu : tr.event.unit = some .dec) {s : State}
    (hf : fitsPort s.cfg tr = true) : ∃ t, deliver tr s = .next t := by
  rw [deliver_canonical tr]
  rw [fitsPort] at hf
  cases he : tr.event with
  | decStart => rw [deliver_decStart]; split <;> exact ⟨_, rfl⟩
  | srcByte b => rw [deliver_srcByte]; split_ifs <;> exact ⟨_, rfl⟩
  | srcEnd => rw [deliver_srcEnd]; split <;> exact ⟨_, rfl⟩
  | srcFail info =>
    rw [he] at hf
    have hio : s.cfg.io.has info = true := hf
    rw [deliver_srcFail, dif_pos hio]
    split <;> exact ⟨_, rfl⟩
  | reset | encStart | snkAccept | snkFail => rw [he] at hu; cases hu

/-- Transfers of the two units commute: each works on its own part of the state the other has left. -/
theorem deliver_comm {te td : Transfer} (he : te.event.unit = some .enc) (hd : td.event.unit = some .dec)
    {s : State} (hf : fitsPort s.cfg td = true) :
    andThen (deliver te s) (deliver td) = andThen (deliver td s) (deliver te) := by
  obtain ⟨u, hu⟩ := deliver_dec_answers hd hf
  have hcu := (deliver_keeps_rest hu).cfg
  have hus : u = s.withDecOf u :=
    (eq_withEncOf_of_deliver hd hu).trans (State.withEncOf_eq_withDecOf hcu.symm)
  have hright : andThen (deliver td s) (deliver te) = andThen (deliver te s) (fun t => .next (t.withDecOf u)) := by
    rw [hu, andThen_next, hus, deliver_withDecOf he, ← hus]
  rw [hright]
  refine andThen_congr fun t ht => ?_
  have hct := (deliver_keeps_rest ht).cfg
  have hts : t = s.withEncOf t := (eq_withDecOf_of_deliver he ht).trans (State.withEncOf_eq_withDecOf hct).symm
  calc deliver td t = andThen (deliver td s) (fun u => .next (u.withEncOf t)) := by
        rw [← deliver_withEncOf hd, ← hts]
    _ = .next (u.withEncOf t) := by rw [hu, andThen_next]
    _ = .next (t.withDecOf u) := by rw [State.withEncOf_eq_withDecOf (hct.trans hcu.symm)]

end Machine

open Machine

/-- Settles O35, by `deliver_comm` and the two frames it rests on. -/
theorem unitsIndependent : Obligations.UnitsIndependent := by
  unfold Obligations.UnitsIndependent
  intro onEnc onDec s te td he hd
  have hue : te.event.unit = some .enc := by
    obtain ⟨x, rfl⟩ | ⟨w, info, rfl⟩ := he
    · rfl
    · exact event_unit_snkRsp w info
  have hud : td.event.unit = some .dec := by
    obtain rfl | ⟨w, info, rfl⟩ := hd
    · rfl
    · exact event_unit_srcRsp w info
  exact ⟨fun t => deliver_keeps_dec hue, fun t => deliver_keeps_enc hud, deliver_comm hue hud⟩

end Sys2Proof
end

section
/-! SUPPORT. The invariant of reachable states (spec/10_state.md R33, spec/41_decoder.md R119, R121): it holds at reset,
every step keeps it, and it bounds the decoder's registers. -/

namespace Sys2Proof

namespace Machine

/-! ### The value of the bytes consumed -/

theorem lastN_concat (k : Nat) (bs : List Byte) (b : Byte) : lastN (k + 1) (bs ++ [b]) = lastN k bs ++ [b] := by
  rw [lastN, lastN, List.length_append, List.length_singleton, Nat.add_sub_add_right,
    List.drop_append_of_le_length (Nat.sub_le _ _)]

theorem length_lastN {k : Nat} {bs : List Byte} (hk : k ≤ bs.length) : (lastN k bs).length = k := by
  rw [lastN, List.length_drop, Nat.sub_sub_self hk]

theorem assemble_concat (bs : List Byte) (b : Byte) :
    assemble (bs ++ [b]) = assemble bs + b.toNat * 2 ^ (7 * bs.length) := by
  simp [assemble, assembleAt_append, assembleAt, Nat.shiftLeft_eq]

theorem isEncoding_concat {bs : List Byte} {b : Byte} (hbs : bs.all isCont = true) (hb : isCont b = false) :
    isEncoding (bs ++ [b]) = true := by
  induction bs with
  | nil => simp [isEncoding, hb]
  | cons c cs ih =>
    obtain ⟨hc, hcs⟩ := Bool.and_eq_true_iff.mp (List.all_cons ▸ hbs)
    simp [isEncoding, hc, ih hcs]

/-- A continuation byte is worth at least the place of the byte after it. -/
theorem two_pow_le_of_isCont {b : Byte} (hb : isCont b = true) (sh : Nat) : 2 ^ (sh + 7) ≤ b.toNat * 2 ^ sh := by
  have hle : 128 ≤ b.toNat := of_decide_eq_true hb
  calc 2 ^ (sh + 7) = 128 * 2 ^ sh := by rw [Nat.pow_add, mul_comm]
    _ ≤ b.toNat * 2 ^ sh := Nat.mul_le_mul_right _ hle

/-- Continuation bytes, one at least, are worth at least the place of the byte after them (R119 (c)). -/
theorem two_pow_le_assemble {bs : List Byte} (hne : bs ≠ []) (hbs : bs.all isCont = true) :
    2 ^ (7 * bs.length) ≤ assemble bs := by
  obtain ⟨front, b, rfl⟩ := (List.eq_nil_or_concat' bs).resolve_left hne
  rw [List.all_append, Bool.and_eq_true_iff] at hbs
  have hb : isCont b = true := by simpa using hbs.2
  rw [assemble_concat, List.length_append, List.length_singleton, Nat.mul_succ]
  exact (two_pow_le_of_isCont hb _).trans (Nat.le_add_left _ _)

/-! ### The decoder's registers while the invariant holds -/

theorem seven_mul_le_shiftMax {k w : Nat} (h : 7 * k < w) : 7 * k ≤ shiftMax w := by
  unfold shiftMax nmax
  omega

theorem shiftMax_lt_two_pow_sw (c : Config) : shiftMax c.wDec < 2 ^ c.sw := ((shiftWidth_le_iff _ _).mp le_rfl).2

/-- DEC_RESULT has no bit at W or above. -/
theorem State.lt_wDec_of_two_pow_le (s : State) {n : Nat} (h : 2 ^ n ≤ s.decResult.toNat) : n < s.cfg.wDec :=
  (Nat.pow_lt_pow_iff_right (by decide)).mp (h.trans_lt s.decResult.isLt)

/-- While a decode runs, DEC_SHIFT is below W (R119 (d)). -/
theorem State.DecRunInv.shift_lt {s : State} (h : s.DecRunInv) (hp : s.decPhase = .run) :
    s.decShift.toNat < s.cfg.wDec := by
  obtain ⟨k, hsh, hk, hcont, hres⟩ := h hp
  rw [hsh]
  cases k with
  | zero => exact s.cfg.wDec_pos
  | succ k =>
    have hlen := length_lastN hk
    have hne : lastN (k + 1) s.sourceTaken ≠ [] := List.ne_nil_of_length_eq_add_one hlen
    have hle := two_pow_le_assemble hne hcont
    rw [hlen, ← hres] at hle
    exact s.lt_wDec_of_two_pow_le hle

/-! ### The invariant is kept: what a unit's updates leave of it -/

theorem EncKept.encStatusInv {s t : State} (h : EncKept s t) (hs : s.EncStatusInv) : t.EncStatusInv := by
  rw [State.EncStatusInv, h.status]
  exact hs

theorem DecKept.decRunInv {s t : State} (h : DecKept s t) (hs : s.DecRunInv) : t.DecRunInv := by
  rw [State.DecRunInv, h.phase, h.shift, h.result, h.taken]
  exact hs

theorem DecKept.decDoneInv {s t : State} (h : DecKept s t) (hc : t.cfg = s.cfg) (hs : s.DecDoneInv) :
    t.DecDoneInv := by
  rw [State.DecDoneInv, h.phase, h.status, h.shift, h.result, h.taken, hc]
  exact hs

/-- With the decoder in IDLE the invariant says no more than that ENC_STATUS is legal. -/
theorem State.Inv.of_idle {s : State} (hd : s.decPhase = .idle) (he : s.EncStatusInv) : s.Inv where
  encStatus := he
  decRun := fun hp => by rw [hd] at hp; cases hp
  decDone := fun hp => by rw [hd] at hp; cases hp

/-- A decode begins with no byte consumed. -/
theorem State.beginDec_decRunInv (s : State) : s.beginDec.DecRunInv := fun _ =>
  ⟨0, rfl, Nat.zero_le _, by simp [lastN], by simp [lastN, assemble, assembleAt]⟩

/-- A continuation byte whose sum fits goes on top of those consumed, and DEC_SHIFT does not wrap (R113). -/
theorem State.DecRunInv.accumulate_cont {s : State} (h : s.DecRunInv) (hp : s.decPhase = .run) {b : Byte}
    (ho : s.ovf b = false) (hb : isCont b = true) : (s.accumulate b).advanceShift.DecRunInv := by
  intro _
  obtain ⟨k, hsh, hk, hcont, hres⟩ := h hp
  have hsum : (s.accumulate b).decResult.toNat = s.decResult.toNat + b.toNat * 2 ^ (7 * k) := by
    rw [State.accumulate_result s b ho, hsh]
  have hle : 2 ^ (7 * (k + 1)) ≤ (s.accumulate b).decResult.toNat :=
    hsum ▸ (two_pow_le_of_isCont hb (7 * k)).trans (Nat.le_add_left _ _)
  have hlt : 7 * (k + 1) < s.cfg.wDec := (s.accumulate b).lt_wDec_of_two_pow_le hle
  have hfit : 7 * (k + 1) < 2 ^ s.cfg.sw := (seven_mul_le_shiftMax hlt).trans_lt (shiftMax_lt_two_pow_sw s.cfg)
  refine ⟨k + 1, ?_, ?_, ?_, ?_⟩
  · calc (s.accumulate b).advanceShift.decShift.toNat = (s.decShift.toNat + 7) % 2 ^ s.cfg.sw := decShift_add_seven s
      _ = 7 * (k + 1) := by rw [hsh, ← Nat.mul_succ, Nat.mod_eq_of_lt hfit]
  · simpa using hk
  · simp [lastN_concat, hcont, hb]
  · calc (s.accumulate b).decResult.toNat = assemble (lastN k s.sourceTaken) + b.toNat * 2 ^ (7 * k) := by
          rw [hsum, hres]
      _ = assemble (lastN (k + 1) (s.sourceTaken ++ [b])) := by
          rw [lastN_concat, assemble_concat, length_lastN hk]

/-- A final byte whose sum fits makes the bytes consumed one encoding of DEC_RESULT (R112). -/
theorem State.DecRunInv.accumulate_final {s : State} (h : s.DecRunInv) (hp : s.decPhase = .run) {b : Byte}
    (ho : s.ovf b = false) (hb : isCont b = false) : ((s.accumulate b).completeOk .dec).DecDoneInv := by
  intro _ _
  have hlt := h.shift_lt hp
  obtain ⟨k, hsh, hk, hcont, hres⟩ := h hp
  refine ⟨k, hsh, ?_, ?_, ?_, hlt⟩
  · simpa using hk
  · simp [lastN_concat, isEncoding_concat hcont hb]
  · calc (s.accumulate b).decResult.toNat = s.decResult.toNat + b.toNat * 2 ^ s.decShift.toNat :=
          State.accumulate_result s b ho
      _ = assemble (lastN (k + 1) (s.sourceTaken ++ [b])) := by
          rw [lastN_concat, assemble_concat, length_lastN hk, hres, hsh]

theorem errorStatus_ne_ok {io : IoType} (k : ErrorKind io) : errorStatus k ≠ .ok := by
  cases k <;> exact nofun

/-- After an error completion at DEC nothing is claimed of the decoder (R178). -/
theorem State.Inv.raise_dec {s : State} (h : s.Inv) (k : ErrorKind s.cfg.io) : (s.raise .dec k).Inv where
  encStatus := h.encStatus
  decRun := fun hp => nomatch hp
  decDone := fun _ hs => absurd hs (errorStatus_ne_ok k)

theorem State.Inv.takeByte {s : State} (h : s.Inv) (hp : s.decPhase = .done) (hs : s.decStatus ≠ .ok) (b : Byte) :
    (s.takeByte b).Inv where
  encStatus := h.encStatus
  decRun := fun hr => by rw [State.takeByte_decPhase, hp] at hr; cases hr
  decDone := fun _ hk => absurd hk hs

theorem isCont_eq_contBit (b : Byte) : isCont b = contBit b := (contBit_eq b).symm

/-! ### The invariant is kept: a delivered transfer, a step -/

/-- ENC_STATUS is written by the encoder's completions and by RESET only. -/
theorem deliver_keeps_encStatusInv {tr : Transfer} (hu : tr.event.unit = some .enc) {s t : State}
    (hs : s.EncStatusInv) (h : deliver tr s = .next t) : t.EncStatusInv := by
  rw [deliver_canonical tr] at h
  cases he : tr.event with
  | encStart x =>
    rw [he, deliver_encStart] at h
    split_ifs at h <;> cases h <;> exact hs
  | snkAccept =>
    rw [he, deliver_snkAccept] at h
    split_ifs at h <;> cases h
    · exact hs
    · exact .inl rfl
    · exact hs
  | snkFail info =>
    rw [he, deliver_snkFail] at h
    split_ifs at h <;> cases h
    · exact .inr rfl
    · exact hs
  | reset | decStart | srcByte | srcEnd | srcFail => rw [he] at hu; cases hu

/-- The decoder's operations keep the invariant. -/
theorem deliver_dec_keeps_inv {tr : Transfer} (hu : tr.event.unit = some .dec) {s t : State}
    (hs : s.Inv) (h : deliver tr s = .next t) : t.Inv := by
  have henc : t.EncStatusInv := (deliver_keeps_enc hu h).encStatusInv hs.encStatus
  rw [deliver_canonical tr] at h
  cases he : tr.event with
  | decStart =>
    rw [he, deliver_decStart] at h
    split_ifs at h <;> cases h
    · exact hs
    · exact ⟨henc, s.beginDec_decRunInv, fun hp => nomatch hp⟩
  | srcByte b =>
    rw [he, deliver_srcByte] at h
    split_ifs at h with hp ho hc <;> cases h
    · exact (hs.raise_dec .overflow).takeByte rfl (errorStatus_ne_ok (io := s.cfg.io) .overflow) b
    · have hcont := hs.decRun.accumulate_cont hp (by simpa using ho) (isCont_eq_contBit b ▸ hc)
      refine ⟨henc, hcont, fun hd => ?_⟩
      rw [State.advanceShift_decPhase, State.accumulate_decPhase, hp] at hd
      cases hd
    · have hdone := hs.decRun.accumulate_final hp (by simpa using ho) (by simpa [isCont_eq_contBit] using hc)
      exact ⟨henc, fun hr => (nomatch hr), hdone⟩
    · exact hs
  | srcEnd =>
    rw [he, deliver_srcEnd] at h
    split_ifs at h <;> cases h
    · exact hs.raise_dec .truncatedInput
    · exact hs
  | srcFail info =>
    rw [he, deliver_srcFail] at h
    split_ifs at h <;> cases h
    · exact hs.raise_dec _
    · exact hs
  | reset | encStart | snkAccept | snkFail => rw [he] at hu; cases hu

theorem exec_reset_inv {s t : State} (h : exec .reset s = .next t) : t.Inv := by
  cases h
  exact .of_idle rfl (.inl rfl)

theorem deliver_keeps_inv {tr : Transfer} {s t : State} (hs : s.Inv) (h : deliver tr s = .next t) : t.Inv := by
  cases hu : tr.event.unit with
  | none =>
    rw [deliver_event (b := .rst) (Event.eq_reset_of_unit hu)] at h
    exact exec_reset_inv h
  | some u =>
    cases u with
    | enc =>
      have hd := deliver_keeps_dec hu h
      exact ⟨deliver_keeps_encStatusInv hu hs.encStatus h, hd.decRunInv hs.decRun,
        hd.decDoneInv (deliver_keeps_rest h).cfg hs.decDone⟩
    | dec => exact deliver_dec_keeps_inv hu hs h

theorem State.Inv.inputs {s : State} (h : s.Inv) (ts : List Transfer) : State.Inv { s with inputs := ts } :=
  ⟨h.encStatus, h.decRun, h.decDone⟩

theorem step_keeps_inv {s t : State} (hs : s.Inv) (h : step s = .next t) : t.Inv := by
  cases hi : s.inputs with
  | nil =>
    rw [step_nil hi] at h
    cases h
    exact hs
  | cons tr rest =>
    rw [step_cons hi] at h
    exact deliver_keeps_inv (hs.inputs rest) h

/-! ### What the invariant says of the registers (R33) -/

theorem Phase.code_ne_three (p : Phase) : p.code ≠ 3 := by
  cases p <;> decide

theorem State.Inv.encStatus_code {s : State} (h : s.Inv) : s.encStatus.code = 0 ∨ s.encStatus.code = 3 := by
  obtain hs | hs := h.encStatus
  · exact .inl (hs ▸ rfl)
  · exact .inr (hs ▸ rfl)

/-- While a decode runs or has completed with status 0, DEC_SHIFT is a multiple of 7 below W. -/
theorem State.Inv.shift_eq {s : State} (h : s.Inv) (hp : s.decPhase = .run ∨ s.decPhase = .done ∧ s.decStatus = .ok) :
    ∃ k, s.decShift.toNat = 7 * k ∧ 7 * k < s.cfg.wDec := by
  obtain hr | ⟨hd, hk⟩ := hp
  · have hlt := h.decRun.shift_lt hr
    obtain ⟨k, hsh, -⟩ := h.decRun hr
    exact ⟨k, hsh, hsh ▸ hlt⟩
  · obtain ⟨k, hsh, -, -, -, hlt⟩ := h.decDone hd hk
    exact ⟨k, hsh, hsh ▸ hlt⟩

end Machine

open Machine

/-- Settles O29: a transfer of the encoder keeps the decoder's part of the invariant and conversely, and each byte the
decoder takes goes on top of the value of those before it. -/
theorem stepKeepsReachableInv : Obligations.StepKeepsReachableInv := by
  unfold Obligations.StepKeepsReachableInv
  exact fun s t => step_keeps_inv

/-- Settles O28: both units are in IDLE with status 0. -/
theorem reachableInvAtReset : Obligations.ReachableInvAtReset := by
  unfold Obligations.ReachableInvAtReset
  exact ⟨fun c => .of_idle rfl (.inl rfl), fun s t => exec_reset_inv⟩

/-- Settles O31: the invariant holds from reset on, and it bounds DEC_SHIFT. -/
theorem reachableStates : Obligations.ReachableStates := by
  unfold Obligations.ReachableStates
  intro n s t _ hdec henc _ hrun
  have hinv : t.Inv := run_keeps (fun _ _ => step_keeps_inv) n (.of_idle hdec (.inl henc)) hrun
  refine ⟨t.encPhase.code_ne_three, t.decPhase.code_ne_three, fun hp => ?_, hinv.encStatus_code⟩
  obtain ⟨k, hsh, hlt⟩ := hinv.shift_eq hp
  rw [hsh]
  exact ⟨Nat.mul_mod_right 7 k, seven_mul_le_shiftMax hlt, hlt, t.decResult.isLt⟩

end Sys2Proof
end

section
/-! SUPPORT. The ports (spec/10_state.md R34) and a clock edge (R36 to R38). -/

namespace Sys2Proof

namespace Machine

/-! ### The wires as events (R37, R38) -/

/-- The sink's wires as an event (R37). -/
theorem event_snkPins (fail : Bool) (info : Nat) :
    (Transfer.snkRsp (BitVec.ofBool fail) info).event = if fail = true then .snkFail info else .snkAccept := by
  cases fail <;> rfl

/-- The source's wires as an event: fail before end before data (R38). -/
theorem event_srcPins (fail eof : Bool) (b : Byte) (info : Nat) :
    (Transfer.srcRsp (srcWord fail eof b) info).event =
      if fail = true then .srcFail info else if eof = true then .srcEnd else .srcByte b := by
  simp only [Transfer.event, srcFailBit_srcWord, srcEndBit_srcWord, srcData_srcWord]

theorem Status.code_eq_zero (st : Status) : st.code = 0 ↔ st = .ok := by
  cases st <;> decide

theorem Status.code_eq_three (st : Status) : st.code = 3 ↔ st = .ioFailure := by
  cases st <;> decide

/-! ### Each port as its function of the registers (R34) -/

theorem State.encReady_iff (s : State) : s.encReady = true ↔ s.encPhase ≠ .run := by
  simp [State.encReady]

theorem State.encDone_iff (s : State) : s.encDone = true ↔ s.encPhase = .done := by
  simp [State.encDone]

theorem State.encStatusOut_eq (s : State) :
    s.encStatusOut = if s.encPhase = .done then some s.encStatus.code else none := by
  simp only [State.encStatusOut, State.encDone_iff]

theorem State.encInfoOut_eq (s : State) :
    s.encInfoOut = if s.encPhase = .done ∧ s.encStatus = .ioFailure then some s.encInfo else none := by
  simp only [State.encInfoOut, Bool.and_eq_true_iff, State.encDone_iff, beq_iff_eq]

theorem State.snkValid_iff (s : State) : s.snkValid = true ↔ s.encPhase = .run := by
  simp [State.snkValid]

theorem State.snkData_eq (s : State) : s.snkData = if s.encPhase = .run then some s.encByte else none := by
  simp only [State.snkData, State.snkValid_iff]

theorem State.decReady_iff (s : State) : s.decReady = true ↔ s.decPhase ≠ .run := by
  simp [State.decReady]

theorem State.decDone_iff (s : State) : s.decDone = true ↔ s.decPhase = .done := by
  simp [State.decDone]

theorem State.decStatusOut_eq (s : State) :
    s.decStatusOut = if s.decPhase = .done then some s.decStatus.code else none := by
  simp only [State.decStatusOut, State.decDone_iff]

theorem State.decInfoOut_eq (s : State) :
    s.decInfoOut = if s.decPhase = .done ∧ s.decStatus = .ioFailure then some s.decInfo else none := by
  simp only [State.decInfoOut, Bool.and_eq_true_iff, State.decDone_iff, beq_iff_eq]

theorem State.decValue_eq (s : State) :
    s.decValue = if s.decPhase = .done ∧ s.decStatus = .ok then some s.decResult else none := by
  simp only [State.decValue, Bool.and_eq_true_iff, State.decDone_iff, beq_iff_eq]

theorem State.decCount_eq (s : State) :
    s.decCount = if s.decPhase = .done ∧ s.decStatus = .ok then
      some (BitVec.ofNat s.cfg.cw (s.decShift.toNat / 7 + 1)) else none := by
  simp only [State.decCount, Bool.and_eq_true_iff, State.decDone_iff, beq_iff_eq]

theorem State.srcReq_iff (s : State) : s.srcReq = true ↔ s.decPhase = .run := by
  simp [State.srcReq]

/-! ### The operation an answer selects at a running unit (R80) -/

theorem deliver_encCmd_of_ready {s : State} (x : Nat) (hp : s.encPhase ≠ .run) :
    deliver (.encCmd x) s = exec (.encStart x) s := by
  apply deliver_of_op
  simp [decode, Transfer.event, selectOp, State.signals, hp]

theorem deliver_decCmd_of_ready {s : State} (hp : s.decPhase ≠ .run) : deliver .decCmd s = exec .decStart s := by
  apply deliver_of_op
  simp [decode, Transfer.event, selectOp, State.signals, hp]

theorem deliver_snkPins {s : State} (fail : Bool) (info : Nat) (hp : s.encPhase = .run) :
    deliver (.snkRsp (BitVec.ofBool fail) info) s =
      if fail = true then exec (.encAbort info) s
      else if s.encV.toNat / 128 = 0 then exec .encEmitFinal s else exec .encEmitCont s := by
  rw [deliver_canonical, event_snkPins]
  split_ifs with hf hv
  · exact deliver_of_op (by simp [decode, selectOp, State.signals, hp])
  · have hm : s.encMore = false := by rw [State.encMore_eq, decide_eq_false_iff_not]; omega
    exact deliver_of_op (by simp [decode, selectOp, State.signals, hp, hm])
  · have hm : s.encMore = true := by rw [State.encMore_eq, decide_eq_true_iff]; omega
    exact deliver_of_op (by simp [decode, selectOp, State.signals, hp, hm])

theorem deliver_srcPins {s : State} (fail eof : Bool) (b : Byte) (info : Nat) (hp : s.decPhase = .run) :
    deliver (.srcRsp (srcWord fail eof b) info) s =
      if fail = true then exec (.decFail info) s
      else if eof = true then exec .decEof s
      else if s.ovf b = true then exec (.decOverflow b) s
      else if 128 ≤ b.toNat then exec (.decByteCont (payload b)) s
      else exec (.decByteFinal (payload b)) s := by
  rw [deliver_canonical, event_srcPins]
  split_ifs with hf he ho hb
  · exact deliver_of_op (by simp [decode, selectOp, State.signals, hp])
  · exact deliver_of_op (by simp [decode, selectOp, State.signals, hp])
  · exact deliver_of_op (by simp [decode, selectOp, State.signals, hp, ho])
  · have hc : contBit b = true := by rw [contBit_eq, decide_eq_true hb]
    exact deliver_of_op (by simp [decode, selectOp, State.signals, hp, ho, hc])
  · have hc : contBit b = false := by rw [contBit_eq, decide_eq_false hb]
    exact deliver_of_op (by simp [decode, selectOp, State.signals, hp, ho, hc])

/-! ### The transfers of an edge (R37, R38) -/

theorem deliverAll_singleton (tr : Transfer) (s : State) : deliverAll [tr] s = deliver tr s := by
  rw [deliverAll]
  cases deliver tr s <;> rfl

theorem encTransfer_unit {p : Pins} {s : State} {tr : Transfer} (h : p.encTransfer s = some tr) :
    tr.event.unit = some .enc := by
  unfold Pins.encTransfer at h
  split_ifs at h <;> cases h
  · rfl
  · exact event_unit_snkRsp _ _

/-- The encoder's transfer at an edge changes nothing of the decoder. -/
theorem deliverAll_encTransfer_keeps {p : Pins} {s u : State}
    (h : deliverAll (p.encTransfer s).toList s = .next u) : DecKept s u ∧ u.cfg = s.cfg := by
  cases he : p.encTransfer s with
  | none =>
    rw [he] at h
    cases h
    exact ⟨.refl s, rfl⟩
  | some tr =>
    rw [he, Option.toList_some, deliverAll_singleton] at h
    exact ⟨deliver_keeps_dec (encTransfer_unit he) h, (deliver_keeps_rest h).cfg⟩

theorem deliverAll_encTransfer (p : Pins) (s : State) :
    deliverAll (p.encTransfer s).toList s =
      if p.encCmdValid = true ∧ s.encPhase ≠ .run then exec (.encStart p.encCmdValue) s
      else if s.encPhase = .run ∧ p.snkReady = true then
        (if p.snkFail = true then exec (.encAbort p.snkInfo) s
         else if s.encV.toNat / 128 = 0 then exec .encEmitFinal s else exec .encEmitCont s)
      else .next s := by
  have hcmd : (p.encCmdValid && s.encReady) = true ↔ p.encCmdValid = true ∧ s.encPhase ≠ .run := by
    rw [Bool.and_eq_true_iff, State.encReady_iff]
  have hrsp : (s.snkValid && p.snkReady) = true ↔ s.encPhase = .run ∧ p.snkReady = true := by
    rw [Bool.and_eq_true_iff, State.snkValid_iff]
  simp only [Pins.encTransfer, hcmd, hrsp]
  by_cases hc : p.encCmdValid = true ∧ s.encPhase ≠ .run
  · rw [if_pos hc, if_pos hc, Option.toList_some, deliverAll_singleton, deliver_encCmd_of_ready _ hc.2]
  · rw [if_neg hc, if_neg hc]
    by_cases hr : s.encPhase = .run ∧ p.snkReady = true
    · rw [if_pos hr, if_pos hr, Option.toList_some, deliverAll_singleton, deliver_snkPins _ _ hr.1]
    · rw [if_neg hr, if_neg hr]
      rfl

/-- The decoder's transfer of the state before the edge, made in a state with the same decoder. -/
theorem deliverAll_decTransfer (p : Pins) {s u : State} (hd : DecKept s u) (hcfg : u.cfg = s.cfg) :
    deliverAll (p.decTransfer s).toList u =
      if p.decCmdValid = true ∧ s.decPhase ≠ .run then exec .decStart u
      else if s.decPhase = .run ∧ p.srcValid = true then
        (if p.srcFail = true then exec (.decFail p.srcInfo) u
         else if p.srcEof = true then exec .decEof u
         else if s.ovf p.srcData = true then exec (.decOverflow p.srcData) u
         else if 128 ≤ p.srcData.toNat then exec (.decByteCont (payload p.srcData)) u
         else exec (.decByteFinal (payload p.srcData)) u)
      else .next u := by
  have hcmd : (p.decCmdValid && s.decReady) = true ↔ p.decCmdValid = true ∧ s.decPhase ≠ .run := by
    rw [Bool.and_eq_true_iff, State.decReady_iff]
  have hrsp : (s.srcReq && p.srcValid) = true ↔ s.decPhase = .run ∧ p.srcValid = true := by
    rw [Bool.and_eq_true_iff, State.srcReq_iff]
  have hovf : s.ovf p.srcData = u.ovf p.srcData := by
    simp only [State.ovf_eq, hcfg, hd.result, hd.shift]
  simp only [Pins.decTransfer, hcmd, hrsp, hovf]
  by_cases hc : p.decCmdValid = true ∧ s.decPhase ≠ .run
  · rw [if_pos hc, if_pos hc, Option.toList_some, deliverAll_singleton, deliver_decCmd_of_ready (hd.phase ▸ hc.2)]
  · rw [if_neg hc, if_neg hc]
    by_cases hr : s.decPhase = .run ∧ p.srcValid = true
    · rw [if_pos hr, if_pos hr, Option.toList_some, deliverAll_singleton,
        deliver_srcPins _ _ _ _ (hd.phase.trans hr.1)]
    · rw [if_neg hr, if_neg hr]
      rfl

theorem edge_rst {p : Pins} (h : p.rst = true) (s : State) : edge p s = exec .reset s := by
  rw [edge, Pins.transfers, if_pos h, deliverAll_singleton]
  rfl

theorem edge_transfers {p : Pins} (h : p.rst = false) (s : State) :
    edge p s = andThen (deliverAll (p.encTransfer s).toList s) (deliverAll (p.decTransfer s).toList) := by
  rw [edge, Pins.transfers, if_neg (Bool.eq_false_iff.mp h), deliverAll_append]

end Machine

open Machine

/-- Settles O36: the decoder's transfer, selected before the edge, still meets the same decoder after the encoder's. -/
theorem edgeMakesTransfers : Obligations.EdgeMakesTransfers := by
  unfold Obligations.EdgeMakesTransfers
  refine fun p s => ⟨fun h => edge_rst h s, fun h => ?_⟩
  rw [edge_transfers h, ← deliverAll_encTransfer p s]
  refine andThen_congr fun u hu => ?_
  obtain ⟨hd, hcfg⟩ := deliverAll_encTransfer_keeps hu
  exact deliverAll_decTransfer p hd hcfg

/-- Settles O24: the status tests are read on the codes, and the count is not cut where it fits. -/
theorem portsShowRegisters : Obligations.PortsShowRegisters := by
  unfold Obligations.PortsShowRegisters
  intro s
  simp only [Status.code_eq_zero, Status.code_eq_three]
  refine ⟨s.encReady_iff, s.encDone_iff, s.encStatusOut_eq, s.encInfoOut_eq, s.snkValid_iff, s.snkData_eq,
    s.decReady_iff, s.decDone_iff, s.decStatusOut_eq, s.decInfoOut_eq, s.decValue_eq, fun h => ?_,
    fun hp hs hfit => ?_, s.srcReq_iff⟩
  · rw [State.decCount_eq, if_neg h]
  · rw [State.decCount_eq, if_pos ⟨hp, hs⟩, Option.map_some, BitVec.toNat_ofNat, Nat.mod_eq_of_lt hfit]

end Sys2Proof
end

section
/-! SUPPORT. An operation's outcome forgets the past (spec/10_state.md R40): two runs from the same START and the
same answers, compared in what their operations use and show. -/

namespace Sys2Proof

namespace Machine

/-- Two encodes in step: the same in what an encode uses and in the outcome it shows, and the same bytes
written after `a` and after `a'`. -/
structure EncInStep (a a' : List Byte) (s s' : State) : Prop where
  cfg : s.cfg = s'.cfg
  phase : s.encPhase = s'.encPhase
  value : s.encV.toNat = s'.encV.toNat
  status : s.encPhase = .done → s.encStatus = s'.encStatus
  info : s.encPhase = .done → s.encStatus = .ioFailure → s.encInfo.val = s'.encInfo.val
  written : ∃ w, s.sinkStream = a ++ w ∧ s'.sinkStream = a' ++ w

/-- Two decodes in step: the same in what a decode uses and in the outcome it shows, and the same bytes
consumed after `a` and after `a'`. -/
structure DecInStep (a a' : List Byte) (s s' : State) : Prop where
  cfg : s.cfg = s'.cfg
  phase : s.decPhase = s'.decPhase
  result : s.decPhase = .run ∨ s.decStatus = .ok → s.decResult.toNat = s'.decResult.toNat
  shift : s.decPhase = .run ∨ s.decStatus = .ok → s.decShift.toNat = s'.decShift.toNat
  status : s.decPhase = .done → s.decStatus = s'.decStatus
  info : s.decPhase = .done → s.decStatus = .ioFailure → s.decInfo.val = s'.decInfo.val
  taken : ∃ w, s.sourceTaken = a ++ w ∧ s'.sourceTaken = a' ++ w

/-- Streams that have grown by the same bytes still have when one more goes to both. -/
theorem grown_concat {a a' bs bs' : List Byte} (h : ∃ w, bs = a ++ w ∧ bs' = a' ++ w) (b : Byte) :
    ∃ w, bs ++ [b] = a ++ w ∧ bs' ++ [b] = a' ++ w := by
  obtain ⟨w, rfl, rfl⟩ := h
  exact ⟨w ++ [b], List.append_assoc .., List.append_assoc ..⟩

/-- What a port shows under one condition, seen as a number, is what another shows under an equivalent one. -/
theorem map_shown_congr {α β γ : Type} {c c' : Prop} [Decidable c] [Decidable c'] {x : α} {y : β} {f : α → γ}
    {g : β → γ} (hc : c ↔ c') (hv : c' → f x = g y) :
    (if c then some x else none).map f = (if c' then some y else none).map g := by
  by_cases h : c'
  · rw [if_pos h, if_pos (hc.mpr h), Option.map_some, Option.map_some, hv h]
  · rw [if_neg h, if_neg (mt hc.mp h), Option.map_none, Option.map_none]

/-- No sink's answer does anything where no byte is on offer (R96). -/
theorem deliver_snkRsp_unasked {s : State} (w : SnkWord) (info : Nat) (hp : s.encPhase ≠ .run) :
    deliver (.snkRsp w info) s = .next s := by
  rw [deliver_canonical]
  obtain he | he := event_snkRsp w info
  · rw [he, deliver_snkAccept, if_neg hp]
  · rw [he, deliver_snkFail, if_neg hp]

/-- No source's answer does anything where no byte is requested (R118). -/
theorem deliver_srcRsp_unasked {s : State} (w : SrcWord) (info : Nat) (hp : s.decPhase ≠ .run) :
    deliver (.srcRsp w info) s = .next s := by
  rw [deliver_canonical]
  obtain ⟨b, he⟩ | he | he := event_srcRsp w info
  · rw [he, deliver_srcByte, if_neg hp]
  · rw [he, deliver_srcEnd, if_neg hp]
  · rw [he, deliver_srcFail, if_neg hp]

section
variable {a a' : List Byte} {s s' t t' : State}

namespace EncInStep

theorem encMore (h : EncInStep a a' s s') : s.encMore = s'.encMore := by
  rw [State.encMore_eq, State.encMore_eq, h.value]

theorem encByte (h : EncInStep a a' s s') : s.encByte = s'.encByte := by
  apply BitVec.eq_of_toNat_eq
  rw [State.encByte_toNat, State.encByte_toNat, h.value]

theorem encNext (h : EncInStep a a' s s') (hm : s.encMore = true) : s.encNext.toNat = s'.encNext.toNat := by
  have hv : 128 ≤ s.encV.toNat := of_decide_eq_true (s.encMore_eq ▸ hm)
  rw [State.encNext_toNat s hv, State.encNext_toNat s' (h.value ▸ hv), h.value]

theorem of_start {x : Nat} (hc : s.cfg = s'.cfg) (hp : s.encPhase ≠ .run) (hp' : s'.encPhase ≠ .run)
    (h : deliver (.encCmd x) s = .next t) (h' : deliver (.encCmd x) s' = .next t') :
    EncInStep s.sinkStream s'.sinkStream t t' := by
  rw [deliver_canonical, Transfer.event, deliver_encStart, if_neg hp] at h
  rw [deliver_canonical, Transfer.event, deliver_encStart, if_neg hp'] at h'
  split_ifs at h with hx
  split_ifs at h' with hx'
  cases h
  cases h'
  refine ⟨hc, rfl, ?_, nofun, nofun, [], by simp, by simp⟩
  change (BitVec.ofNat s.cfg.wEnc x).toNat = (BitVec.ofNat s'.cfg.wEnc x).toNat
  rw [hc]

theorem after_answer (h : EncInStep a a' s s') {w : SnkWord} {info : Nat} (ht : deliver (.snkRsp w info) s = .next t)
    (ht' : deliver (.snkRsp w info) s' = .next t') : EncInStep a a' t t' := by
  by_cases hp : s.encPhase = .run
  · have hp' : s'.encPhase = .run := h.phase ▸ hp
    rw [deliver_canonical] at ht ht'
    obtain he | he := event_snkRsp w info
    · rw [he, deliver_snkAccept, if_pos hp] at ht
      rw [he, deliver_snkAccept, if_pos hp', ← h.encMore, ← h.encByte] at ht'
      split_ifs at ht ht' with hm <;> cases ht <;> cases ht'
      · exact { h with value := h.encNext hm, written := grown_concat h.written _ }
      · exact { h with phase := rfl, status := fun _ => rfl, info := nofun, written := grown_concat h.written _ }
    · rw [he, deliver_snkFail, if_pos hp] at ht
      rw [he, deliver_snkFail, if_pos hp'] at ht'
      split_ifs at ht ht'
      cases ht
      cases ht'
      exact { h with phase := rfl, status := fun _ => rfl, info := fun _ _ => rfl }
  · rw [deliver_snkRsp_unasked w info hp] at ht
    rw [deliver_snkRsp_unasked w info (h.phase ▸ hp)] at ht'
    cases ht
    cases ht'
    exact h

theorem shown_iff (h : EncInStep a a' s s') (st : Status) :
    s'.encPhase = .done ∧ s'.encStatus = st ↔ s.encPhase = .done ∧ s.encStatus = st := by
  rw [← h.phase]
  exact and_congr_right fun hd => by rw [h.status hd]

theorem sameOutputs (h : EncInStep a a' s s') : SameEncOutputs s s' where
  ready := by rw [State.encReady, State.encReady, h.phase]
  done := by rw [State.encDone, State.encDone, h.phase]
  status := by
    rw [State.encStatusOut_eq, State.encStatusOut_eq, ← h.phase]
    exact ite_congr rfl (fun hd => by rw [h.status hd]) (fun _ => rfl)
  info := by
    rw [State.encInfoOut_eq, State.encInfoOut_eq]
    exact map_shown_congr (h.shown_iff .ioFailure) fun hd => (h.info hd.1 hd.2).symm
  valid := by rw [State.snkValid, State.snkValid, h.phase]
  data := by rw [State.snkData_eq, State.snkData_eq, h.phase, h.encByte]

/-- START and the same answers end in step, whatever the two states held before (R40 (a)). -/
theorem of_run {x : Nat} {as : List (SnkWord × Nat)} (hc : s.cfg = s'.cfg) (hp : s.encPhase ≠ .run)
    (hp' : s'.encPhase ≠ .run)
    (h : deliverAll (.encCmd x :: as.map (fun a => .snkRsp a.1 a.2)) s = .next t)
    (h' : deliverAll (.encCmd x :: as.map (fun a => .snkRsp a.1 a.2)) s' = .next t') :
    EncInStep s.sinkStream s'.sinkStream t t' := by
  obtain ⟨u, hu, hut⟩ := andThen_eq_next h
  obtain ⟨u', hu', hut'⟩ := andThen_eq_next h'
  refine deliverAll_keeps_rel (fun tr htr v v' w w' hv hw hw' => ?_) (of_start hc hp hp' hu hu') hut hut'
  obtain ⟨a, -, rfl⟩ := List.mem_map.mp htr
  exact hv.after_answer hw hw'

end EncInStep

namespace DecInStep

theorem ovf (h : DecInStep a a' s s') (hp : s.decPhase = .run) (b : Byte) : s.ovf b = s'.ovf b := by
  simp only [State.ovf_eq, h.result (.inl hp), h.shift (.inl hp), h.cfg]

theorem of_start (hc : s.cfg = s'.cfg) (hp : s.decPhase ≠ .run) (hp' : s'.decPhase ≠ .run)
    (h : deliver .decCmd s = .next t) (h' : deliver .decCmd s' = .next t') :
    DecInStep s.sourceTaken s'.sourceTaken t t' := by
  rw [deliver_canonical, Transfer.event, deliver_decStart, if_neg hp] at h
  rw [deliver_canonical, Transfer.event, deliver_decStart, if_neg hp'] at h'
  cases h
  cases h'
  exact ⟨hc, rfl, fun _ => rfl, fun _ => rfl, nofun, nofun, [], by simp, by simp⟩

theorem accumulate (h : DecInStep a a' s s') (hp : s.decPhase = .run) (b : Byte) :
    DecInStep a a' (s.accumulate b) (s'.accumulate b) where
  cfg := h.cfg
  phase := h.phase
  result := fun _ => by
    change (BitVec.ofNat s.cfg.wDec (s.decSum b)).toNat = (BitVec.ofNat s'.cfg.wDec (s'.decSum b)).toNat
    rw [State.decSum_eq, State.decSum_eq, h.result (.inl hp), h.shift (.inl hp), h.cfg]
  shift := fun _ => h.shift (.inl hp)
  status := h.status
  info := h.info
  taken := grown_concat h.taken b

theorem advanceShift (h : DecInStep a a' s s') : DecInStep a a' s.advanceShift s'.advanceShift :=
  { h with
    shift := fun hr => by
      change (s.decShift + 7 : BitVec s.cfg.sw).toNat = (s'.decShift + 7 : BitVec s'.cfg.sw).toNat
      rw [decShift_add_seven, decShift_add_seven, h.shift hr, h.cfg] }

theorem completeOk (h : DecInStep a a' s s') (hp : s.decPhase = .run) :
    DecInStep a a' (s.completeOk .dec) (s'.completeOk .dec) :=
  { h with
    phase := rfl
    result := fun _ => h.result (.inl hp)
    shift := fun _ => h.shift (.inl hp)
    status := fun _ => rfl
    info := nofun }

/-- After error completion neither DEC_RESULT nor DEC_SHIFT is compared: each run left its own free values (R178). -/
theorem raise (h : DecInStep a a' s s') {k : ErrorKind s.cfg.io} {k' : ErrorKind s'.cfg.io}
    (hs : errorStatus k = errorStatus k')
    (hv : errorStatus k = .ioFailure → (errorInfo s.decInfo k).val = (errorInfo s'.decInfo k').val) :
    DecInStep a a' (s.raise .dec k) (s'.raise .dec k') :=
  { h with
    phase := rfl
    result := fun hr => absurd (hr.resolve_left nofun) (errorStatus_ne_ok k)
    shift := fun hr => absurd (hr.resolve_left nofun) (errorStatus_ne_ok k)
    status := fun _ => hs
    info := fun _ => hv }

theorem takeByte (h : DecInStep a a' s s') (b : Byte) : DecInStep a a' (s.takeByte b) (s'.takeByte b) :=
  { h with taken := grown_concat h.taken b }

theorem after_answer (h : DecInStep a a' s s') {w : SrcWord} {info : Nat} (ht : deliver (.srcRsp w info) s = .next t)
    (ht' : deliver (.srcRsp w info) s' = .next t') : DecInStep a a' t t' := by
  by_cases hp : s.decPhase = .run
  · have hp' : s'.decPhase = .run := h.phase ▸ hp
    rw [deliver_canonical] at ht ht'
    obtain ⟨b, he⟩ | he | he := event_srcRsp w info
    · rw [he, deliver_srcByte, if_pos hp] at ht
      rw [he, deliver_srcByte, if_pos hp', ← h.ovf hp] at ht'
      split_ifs at ht ht' <;> cases ht <;> cases ht'
      · have hr : DecInStep a a' (s.raise .dec .overflow) (s'.raise .dec .overflow) := h.raise rfl nofun
        exact hr.takeByte b
      · exact (h.accumulate hp b).advanceShift
      · exact (h.accumulate hp b).completeOk hp
    · rw [he, deliver_srcEnd, if_pos hp] at ht
      rw [he, deliver_srcEnd, if_pos hp'] at ht'
      cases ht
      cases ht'
      exact h.raise rfl nofun
    · rw [he, deliver_srcFail, if_pos hp] at ht
      rw [he, deliver_srcFail, if_pos hp'] at ht'
      split_ifs at ht ht'
      cases ht
      cases ht'
      exact h.raise rfl (fun _ => rfl)
  · rw [deliver_srcRsp_unasked w info hp] at ht
    rw [deliver_srcRsp_unasked w info (h.phase ▸ hp)] at ht'
    cases ht
    cases ht'
    exact h

theorem shown_iff (h : DecInStep a a' s s') (st : Status) :
    s'.decPhase = .done ∧ s'.decStatus = st ↔ s.decPhase = .done ∧ s.decStatus = st := by
  rw [← h.phase]
  exact and_congr_right fun hd => by rw [h.status hd]

theorem sameOutputs (h : DecInStep a a' s s') : SameDecOutputs s s' where
  ready := by rw [State.decReady, State.decReady, h.phase]
  done := by rw [State.decDone, State.decDone, h.phase]
  status := by
    rw [State.decStatusOut_eq, State.decStatusOut_eq, ← h.phase]
    exact ite_congr rfl (fun hd => by rw [h.status hd]) (fun _ => rfl)
  info := by
    rw [State.decInfoOut_eq, State.decInfoOut_eq]
    exact map_shown_congr (h.shown_iff .ioFailure) fun hd => (h.info hd.1 hd.2).symm
  value := by
    rw [State.decValue_eq, State.decValue_eq]
    exact map_shown_congr (h.shown_iff .ok) fun hd => (h.result (.inr hd.2)).symm
  count := by
    rw [State.decCount_eq, State.decCount_eq]
    exact map_shown_congr (h.shown_iff .ok) fun hd => by rw [h.shift (.inr hd.2), h.cfg]
  req := by rw [State.srcReq, State.srcReq, h.phase]

/-- START and the same answers end in step, whatever the two states held before (R40 (b)). -/
theorem of_run {as : List (SrcWord × Nat)} (hc : s.cfg = s'.cfg) (hp : s.decPhase ≠ .run)
    (hp' : s'.decPhase ≠ .run)
    (h : deliverAll (.decCmd :: as.map (fun a => .srcRsp a.1 a.2)) s = .next t)
    (h' : deliverAll (.decCmd :: as.map (fun a => .srcRsp a.1 a.2)) s' = .next t') :
    DecInStep s.sourceTaken s'.sourceTaken t t' := by
  obtain ⟨u, hu, hut⟩ := andThen_eq_next h
  obtain ⟨u', hu', hut'⟩ := andThen_eq_next h'
  refine deliverAll_keeps_rel (fun tr htr v v' w w' hv hw hw' => ?_) (of_start hc hp hp' hu hu') hut hut'
  obtain ⟨a, -, rfl⟩ := List.mem_map.mp htr
  exact hv.after_answer hw hw'

end DecInStep

end

end Machine

open Machine

/-- Settles O55: START puts the two runs in step, and each answer keeps them there. -/
theorem outcomeForgetsThePast : Obligations.OutcomeForgetsThePast := by
  unfold Obligations.OutcomeForgetsThePast
  refine fun s s' hc => ⟨fun x as t t' hp hp' h h' => ?_, fun as t t' hp hp' h h' => ?_⟩
  · have hstep := EncInStep.of_run hc hp hp' h h'
    exact ⟨hstep.sameOutputs, hstep.written⟩
  · have hstep := DecInStep.of_run hc hp hp' h h'
    exact ⟨hstep.sameOutputs, hstep.taken⟩

end Sys2Proof
end

section
/-! SUPPORT. A whole ENCODE of the unit writes the bytes of `enc` (spec/30_encoding.md R82, spec/40_encoder.md R99), and
ENCODEs made in turn write theirs one after another (spec/20_memory.md R63). -/

namespace Sys2Proof

namespace Machine

/-! ### The equations of `enc` (R142) and the length of its bytes -/

theorem enc_of_lt {v : Nat} (h : v < 128) : enc v = [BitVec.ofNat 8 v] := by
  rw [enc, encLoop, if_pos h]

theorem enc_of_le {v : Nat} (h : 128 ≤ v) : enc v = BitVec.ofNat 8 (v % 128 + 128) :: enc (v / 128 - 1) := by
  rw [enc, encLoop, if_neg (Nat.not_lt.mpr h), encLoop_fuel (v / 128 - 1) v (v / 128 - 1 + 1) (by omega) (by omega)]
  rfl

theorem length_enc_pos (v : Nat) : 0 < (enc v).length := by
  by_cases h : v < 128
  · rw [enc_of_lt h]
    exact Nat.one_pos
  · rw [enc_of_le (Nat.le_of_not_lt h)]
    exact Nat.succ_pos _

/-- Each byte takes seven bits off the value (R150). -/
theorem length_enc_le {k v : Nat} (h : v < 2 ^ (7 * (k + 1))) : (enc v).length ≤ k + 1 := by
  induction k generalizing v with
  | zero => rw [enc_of_lt h, List.length_singleton]
  | succ k ih =>
    by_cases hv : v < 128
    · rw [enc_of_lt hv]
      exact Nat.succ_le_succ (Nat.zero_le _)
    · have hdiv : v / 128 < 2 ^ (7 * (k + 1)) := Nat.div_lt_of_lt_mul (by rwa [mul_add, pow_add, mul_comm] at h)
      rw [enc_of_le (Nat.le_of_not_lt hv), List.length_cons]
      exact Nat.succ_le_succ (ih (by omega))

theorem length_enc_le_nmax {w v : Nat} (hw : 0 < w) (h : v < 2 ^ w) : (enc v).length ≤ nmax w := by
  obtain ⟨hceil, -⟩ := nmax_is_ceiling w
  obtain ⟨k, hk⟩ : ∃ k, nmax w = k + 1 := ⟨nmax w - 1, by omega⟩
  rw [hk] at hceil ⊢
  exact length_enc_le (h.trans_le (Nat.pow_le_pow_right Nat.two_pos hceil))

/-! ### The byte on offer is the first of `enc` of the value in ENC_V (R90) -/

theorem State.encByte_eq_ofNat (s : State) :
    s.encByte = BitVec.ofNat 8 (s.encV.toNat % 128 + if 128 ≤ s.encV.toNat then 128 else 0) := by
  rw [← State.encByte_toNat, BitVec.ofNat_toNat, BitVec.setWidth_eq]

theorem State.enc_encV_of_final {s : State} (hm : s.encMore = false) : enc s.encV.toNat = [s.encByte] := by
  have hv : ¬ 128 ≤ s.encV.toNat := of_decide_eq_false (s.encMore_eq ▸ hm)
  rw [enc_of_lt (Nat.lt_of_not_le hv), State.encByte_eq_ofNat, if_neg hv, Nat.mod_eq_of_lt (Nat.lt_of_not_le hv),
    Nat.add_zero]

theorem State.enc_encV_of_more {s : State} (hm : s.encMore = true) :
    enc s.encV.toNat = s.encByte :: enc s.encNext.toNat := by
  have hv : 128 ≤ s.encV.toNat := of_decide_eq_true (s.encMore_eq ▸ hm)
  rw [enc_of_le hv, State.encNext_toNat s hv, State.encByte_eq_ofNat, if_pos hv]

/-! ### ENCODE -/

/-- From `s` to `t` one encode has written `bs` and completed with status 0; nothing outside the encoder has changed. -/
structure Encoded (s : State) (bs : List Byte) (t : State) : Prop where
  sink : t.sinkStream = s.sinkStream ++ bs
  phase : t.encPhase = .done
  status : t.encStatus = .ok
  dec : DecKept s t
  rest : RestKept s t

/-- An encode that goes on after the byte `b`. -/
theorem Encoded.cons {s u t : State} {b : Byte} {bs : List Byte} (hsink : u.sinkStream = s.sinkStream ++ [b])
    (hdec : DecKept s u) (hrest : RestKept s u) (h : Encoded u bs t) : Encoded s (b :: bs) t where
  sink := by rw [h.sink, hsink, List.append_assoc, List.singleton_append]
  phase := h.phase
  status := h.status
  dec := hdec.trans h.dec
  rest := hrest.trans h.rest

theorem acceptWhileRunning_of_not_run {s : State} (n : Nat) (hp : s.encPhase ≠ .run) :
    acceptWhileRunning n s = .next s := by
  cases n with
  | zero => rfl
  | succ n => rw [acceptWhileRunning, if_neg hp]

/-- A sink that accepts every offer gets `enc` of the value in ENC_V, where it may answer once for each of the bytes. -/
theorem acceptWhileRunning_writes_enc {n : Nat} {s : State} (hp : s.encPhase = .run)
    (hn : (enc s.encV.toNat).length ≤ n) :
    ∃ t, acceptWhileRunning n s = .next t ∧ Encoded s (enc s.encV.toNat) t := by
  induction n generalizing s with
  | zero => exact absurd hn (Nat.not_le.mpr (length_enc_pos _))
  | succ n ih =>
    rw [acceptWhileRunning, if_pos hp, deliver_snkAccept, if_pos hp]
    cases hm : s.encMore with
    | true =>
      rw [State.enc_encV_of_more hm] at hn ⊢
      obtain ⟨t, ht, hst⟩ := ih (s := (s.pushSink s.encByte).loadNext) hp (Nat.le_of_succ_le_succ hn)
      exact ⟨t, ht, .cons (u := (s.pushSink s.encByte).loadNext) rfl ⟨rfl, rfl, rfl, rfl, rfl, rfl⟩ ⟨rfl, rfl⟩ hst⟩
    | false =>
      rw [State.enc_encV_of_final hm]
      exact ⟨(s.pushSink s.encByte).completeOk .enc, acceptWhileRunning_of_not_run n nofun,
        rfl, rfl, rfl, ⟨rfl, rfl, rfl, rfl, rfl, rfl⟩, rfl, rfl⟩

/-- `ENCODE x` at a unit at rest writes exactly `enc x` (R99). -/
theorem encodeCall_writes_enc {s : State} {x : Nat} (hp : s.encPhase ≠ .run) (hx : x < 2 ^ s.cfg.wEnc) :
    ∃ t, encodeCall x s = .next t ∧ Encoded s (enc x) t := by
  have hv : (s.beginEnc (BitVec.ofNat s.cfg.wEnc x)).encV.toNat = x :=
    (BitVec.toNat_ofNat x s.cfg.wEnc).trans (Nat.mod_eq_of_lt hx)
  obtain ⟨t, ht, hst⟩ := acceptWhileRunning_writes_enc (s := s.beginEnc (BitVec.ofNat s.cfg.wEnc x)) rfl
    (hv.symm ▸ length_enc_le_nmax s.cfg.wEnc_pos hx)
  rw [hv] at hst
  refine ⟨t, ?_, ⟨hst.sink, hst.phase, hst.status, ?_, ?_⟩⟩
  · rw [encodeCall, deliver_encStart, if_neg hp, if_pos hx, andThen_next]
    exact ht
  · exact .trans (t := s.beginEnc _) ⟨rfl, rfl, rfl, rfl, rfl, rfl⟩ hst.dec
  · exact .trans (t := s.beginEnc _) ⟨rfl, rfl⟩ hst.rest

end Machine

open Machine

/-- Settles O54: each ENCODE begins where the one before it left the stream, at rest and with its widths unchanged. -/
theorem sinkStreamConcatenates : Obligations.SinkStreamConcatenates := by
  unfold Obligations.SinkStreamConcatenates
  intro s xs hp hxs
  induction xs generalizing s with
  | nil => exact ⟨s, rfl, (List.append_nil _).symm, hp⟩
  | cons x xs ih =>
    obtain ⟨hx, hxs⟩ := List.forall_mem_cons.mp hxs
    obtain ⟨u, hu, hsu⟩ := encodeCall_writes_enc hp hx
    obtain ⟨t, ht, hsink, hrest⟩ := ih u (by rw [hsu.phase]; nofun) (by rwa [hsu.rest.cfg])
    refine ⟨t, by rw [encodeAll, hu, andThen_next, ht], ?_, hrest⟩
    rw [hsink, hsu.sink, List.append_assoc, List.flatMap_cons]

end Sys2Proof
end

section
/-! SUPPORT. Operations and their encodings (spec/30_encoding.md R78 to R80): the operation map as the inverse of "the event
of an operation", raw response words, and operations asked for directly. -/

namespace Sys2Proof

/-! ### The event of an operation, and the operation map as its inverse (R80) -/

/-- R80's column "Event": the event that triggers the operation, with its operand. -/
def Instr.event : Instr → Event
  | .reset => .reset
  | .encStart x => .encStart x
  | .encEmitFinal => .snkAccept
  | .encEmitCont => .snkAccept
  | .encAbort info => .snkFail info
  | .decStart => .decStart
  | .decByteFinal g => .srcByte (wireByte false g)
  | .decByteCont g => .srcByte (wireByte true g)
  | .decOverflow b => .srcByte b
  | .decEof => .srcEnd
  | .decFail info => .srcFail info

/-- The encoding of an operation carries the operation's event. -/
theorem event_encode (i : Instr) : (encode i).event = i.event := by
  cases i with
  | decByteFinal g => exact Machine.event_finalWord g 0
  | decByteCont g => exact Machine.event_contWord g 0
  | decOverflow b => exact Machine.event_byteWord b 0
  | reset | encStart | encEmitFinal | encEmitCont | encAbort | decStart | decEof | decFail => rfl

/-- Under signals that select an operation, its event selects that operation. -/
theorem selectOp_event {g : Signals} {i : Instr} (h : i.selectedUnder g = true) : selectOp g i.event = .op i := by
  cases i with
  | reset => rfl
  | encStart | encEmitFinal | encEmitCont | encAbort | decStart | decOverflow | decEof | decFail =>
    simp only [Instr.selectedUnder, Bool.and_eq_true, Bool.not_eq_true'] at h
    simp [Instr.event, selectOp, h]
  | decByteFinal | decByteCont =>
    simp only [Instr.selectedUnder, Bool.and_eq_true, Bool.not_eq_true'] at h
    simp [Instr.event, selectOp, h, Machine.contBit_wireByte, Machine.payload_wireByte]

/-- An event selects no operation but one whose event it is and whose condition holds. -/
theorem selected_of_selectOp {g : Signals} {e : Event} {i : Instr} (h : selectOp g e = .op i) :
    i.selectedUnder g = true ∧ i.event = e := by
  cases e with
  | reset => cases h; exact ⟨rfl, rfl⟩
  | srcByte b =>
    have hb : ∀ c, contBit b = c → Event.srcByte (wireByte c (payload b)) = .srcByte b := by
      rintro _ rfl
      rw [Machine.wireByte_parts]
    simp only [selectOp] at h
    split_ifs at h with hr ho hc <;> cases h
    · exact ⟨by simp [Instr.selectedUnder, hr, ho], rfl⟩
    · exact ⟨by simp [Instr.selectedUnder, hr, ho], hb true hc⟩
    · exact ⟨by simp [Instr.selectedUnder, hr, ho], hb false (eq_false_of_ne_true hc)⟩
  | encStart | snkAccept | snkFail | decStart | srcEnd | srcFail =>
    simp only [selectOp] at h
    split_ifs at h <;> cases h <;> exact ⟨by simp [Instr.selectedUnder, *], rfl⟩

/-- The operation map, both ways. -/
theorem decode_eq_op_iff (g : Signals) (t : Transfer) (i : Instr) :
    decode g t = .op i ↔ i.selectedUnder g = true ∧ (encode i).event = t.event := by
  rw [decode, event_encode]
  refine ⟨selected_of_selectOp, fun ⟨hs, he⟩ => ?_⟩
  rw [← he, selectOp_event hs]

/-! ### Raw response words (R78) -/

/-- A sink word is its one field. -/
theorem exists_eq_ofBool (w : SnkWord) : ∃ f, w = BitVec.ofBool f :=
  ⟨w.getLsbD 0, by decide +revert⟩

theorem toNat_srcWord (f e : Bool) (b : Byte) :
    (srcWord f e b).toNat = f.toNat * 512 + e.toNat * 256 + b.toNat := by
  have hb := b.isLt
  have he : (BitVec.ofBool e ++ b).toNat = e.toNat * 256 + b.toNat := by
    rw [BitVec.toNat_append, ← Nat.shiftLeft_add_eq_or_of_lt hb, BitVec.toNat_ofBool, Nat.shiftLeft_eq]
  have hlt := (BitVec.ofBool e ++ b).isLt
  rw [srcWord, BitVec.toNat_append, ← Nat.shiftLeft_add_eq_or_of_lt hlt, BitVec.toNat_ofBool, Nat.shiftLeft_eq, he,
    Nat.add_assoc]

/-- A source word is its fields `f` and `e` and its low byte. -/
theorem exists_eq_srcWord (w : SrcWord) : ∃ f e b, w = srcWord f e b := by
  refine ⟨decide (512 ≤ w.toNat), decide (256 ≤ w.toNat % 512), BitVec.ofNat 8 w.toNat, BitVec.eq_of_toNat_eq ?_⟩
  have hw := w.isLt
  rw [toNat_srcWord, BitVec.toNat_ofNat]
  by_cases hf : 512 ≤ w.toNat <;> by_cases he : 256 ≤ w.toNat % 512 <;> simp [hf, he] <;> omega

namespace Machine

/-! ### The signals as arithmetic conditions on the registers (R90, R110) -/

theorem State.encMore_iff (s : State) : s.encMore = true ↔ s.encV.toNat / 128 ≠ 0 := by
  rw [State.encMore_eq, decide_eq_true_iff]
  omega

theorem State.ovf_iff (s : State) (b : Byte) :
    s.ovf b = true ↔ 2 ^ s.cfg.wDec ≤ s.decResult.toNat + b.toNat * 2 ^ s.decShift.toNat := by
  rw [State.ovf_eq, decide_eq_true_iff]

/-! ### The operation a raw response selects, in every state (R80) -/

theorem deliver_snkRsp (w : SnkWord) (info : Nat) (s : State) :
    deliver (.snkRsp w info) s =
      if s.encPhase ≠ .run then .next s
      else if w = 1 then exec (.encAbort info) s
      else if s.encV.toNat / 128 = 0 then exec .encEmitFinal s
      else exec .encEmitCont s := by
  by_cases hp : s.encPhase = .run
  · obtain ⟨f, rfl⟩ := exists_eq_ofBool w
    rw [deliver_snkPins f info hp, if_neg (not_not_intro hp)]
    cases f <;> rfl
  · rw [deliver_snkRsp_unasked w info hp, if_pos hp]

theorem deliver_srcRsp (w : SrcWord) (info : Nat) (s : State) :
    deliver (.srcRsp w info) s =
      if s.decPhase ≠ .run then .next s
      else if w.toNat / 512 = 1 then exec (.decFail info) s
      else if w.toNat / 256 = 1 then exec .decEof s
      else if 2 ^ s.cfg.wDec ≤ s.decResult.toNat + w.toNat * 2 ^ s.decShift.toNat then
        exec (.decOverflow (BitVec.ofNat 8 w.toNat)) s
      else if w.toNat / 128 = 1 then exec (.decByteCont (BitVec.ofNat 7 w.toNat)) s
      else exec (.decByteFinal (BitVec.ofNat 7 w.toNat)) s := by
  by_cases hp : s.decPhase = .run
  · obtain ⟨f, e, b, rfl⟩ := exists_eq_srcWord w
    have hb := b.isLt
    rw [deliver_srcPins f e b info hp, if_neg (not_not_intro hp), toNat_srcWord]
    cases f with
    | true =>
      have he := e.toNat_le
      rw [if_pos rfl, Bool.toNat_true, if_pos (by omega)]
    | false =>
      cases e with
      | true => rw [if_neg nofun, if_pos rfl, Bool.toNat_false, Bool.toNat_true, if_neg (by omega), if_pos (by omega)]
      | false =>
        have hn : Bool.toNat false * 512 + Bool.toNat false * 256 + b.toNat = b.toNat := by simp
        have hf : ¬ b.toNat / 512 = 1 := by omega
        have he : ¬ b.toNat / 256 = 1 := by omega
        have hc : 128 ≤ b.toNat ↔ b.toNat / 128 = 1 := by omega
        rw [if_neg nofun, if_neg nofun, hn, if_neg hf, if_neg he, BitVec.ofNat_toNat, BitVec.ofNat_toNat,
          BitVec.setWidth_eq]
        simp only [State.ovf_iff, hc]
        rfl
  · rw [deliver_srcRsp_unasked w info hp, if_pos hp]

/-! ### A transfer that fits its port is answered; a bare table word (notes/assumptions/11.md) -/

/-- No port refuses a transfer that fits it (R175). -/
theorem deliver_answers {tr : Transfer} {s : State} (hf : fitsPort s.cfg tr = true) : ∃ t, deliver tr s = .next t := by
  have hfe : eventFits s.cfg tr.event = true := hf
  cases he : tr.event with
  | decStart | srcByte | srcEnd | srcFail => exact deliver_dec_answers (by rw [he]; rfl) hf
  | reset => rw [deliver_canonical, he]; exact ⟨_, rfl⟩
  | encStart x =>
    rw [he] at hfe
    rw [deliver_canonical, he, deliver_encStart, if_pos (of_decide_eq_true hfe)]
    split <;> exact ⟨_, rfl⟩
  | snkAccept => rw [deliver_canonical, he, deliver_snkAccept]; split_ifs <;> exact ⟨_, rfl⟩
  | snkFail info =>
    rw [he] at hfe
    have hio : s.cfg.io.has info = true := hfe
    rw [deliver_canonical, he, deliver_snkFail, dif_pos hio]
    split <;> exact ⟨_, rfl⟩

/-- A table word is a response word, with the description numbered 0 beside it. -/
theorem tableTransfer_eq_some {nbits w : Nat} {t : Transfer} (h : tableTransfer nbits w = some t) :
    (∃ v, t = .snkRsp v 0) ∨ ∃ v, t = .srcRsp v 0 := by
  unfold tableTransfer at h
  split_ifs at h <;> cases h
  · exact .inl ⟨_, rfl⟩
  · exact .inr ⟨_, rfl⟩

theorem decodeTableWord_eq_some {nbits w : Nat} {i : Instr} (h : decodeTableWord nbits w = some i) :
    ∃ t, tableTransfer nbits w = some t ∧ decode tableSignals t = .op i := by
  unfold decodeTableWord at h
  split at h
  · next t ht =>
    refine ⟨t, ht, ?_⟩
    cases hd : decode tableSignals t with
    | op j => rw [hd] at h; cases h; rfl
    | noStep why => rw [hd] at h; cases h
  · cases h

/-- Every type of descriptions has the one numbered 0, so a table word fits its port at every instance. -/
theorem fitsPort_of_tableTransfer {nbits w : Nat} {t : Transfer} (h : tableTransfer nbits w = some t) (c : Config) :
    fitsPort c t = true := by
  obtain ⟨v, rfl⟩ | ⟨v, rfl⟩ := tableTransfer_eq_some h
  · obtain he | he := event_snkRsp v 0 <;> rw [fitsPort, he]
    · rfl
    · exact c.io.has_zero
  · obtain ⟨b, he⟩ | he | he := event_srcRsp v 0 <;> rw [fitsPort, he]
    · rfl
    · rfl
    · exact c.io.has_zero

theorem State.prepareFor_snkRsp_encMore (s : State) (v : SnkWord) (info : Nat) :
    (s.prepareFor (.snkRsp v info)).encMore = false := by
  rw [State.encMore_eq]
  exact decide_eq_false (show ¬ 128 ≤ 0 by decide)

/-- No byte overflows a fresh decode of at least 8 bits. -/
theorem State.prepareFor_srcRsp_ovf {s : State} (hw : 8 ≤ s.cfg.wDec) (v : SrcWord) (info : Nat) (b : Byte) :
    (s.prepareFor (.srcRsp v info)).ovf b = false := by
  have hlt : b.toNat < 2 ^ s.cfg.wDec := b.isLt.trans_le (Nat.pow_le_pow_right Nat.two_pos hw)
  rw [State.ovf_eq]
  exact decide_eq_false (show ¬ 2 ^ s.cfg.wDec ≤ 0 + b.toNat * 2 ^ 0 by omega)

/-- At the unit prepared for it a table word selects what it does under `tableSignals`. -/
theorem decode_prepareFor {nbits w : Nat} {t : Transfer} (h : tableTransfer nbits w = some t) {s : State}
    (hw : 8 ≤ s.cfg.wDec) : decode ((s.prepareFor t).signals t) t = decode tableSignals t := by
  obtain ⟨v, rfl⟩ | ⟨v, rfl⟩ := tableTransfer_eq_some h
  · have hp : (s.prepareFor (.snkRsp v 0)).encPhase = .run := rfl
    have hm := s.prepareFor_snkRsp_encMore v 0
    obtain he | he := event_snkRsp v 0 <;> simp [decode, he, selectOp, State.signals, tableSignals, hp, hm]
  · have hp : (s.prepareFor (.srcRsp v 0)).decPhase = .run := rfl
    have ho := State.prepareFor_srcRsp_ovf hw v 0
    obtain ⟨b, he⟩ | he | he := event_srcRsp v 0 <;> simp [decode, he, selectOp, State.signals, tableSignals, hp, ho]

end Machine

open Machine

/-- Settles O19: the two halves are the two directions of `decode_eq_op_iff`. -/
theorem decodeEncodeAgree : Obligations.DecodeEncodeAgree := by
  unfold Obligations.DecodeEncodeAgree
  exact ⟨fun g i hs => (decode_eq_op_iff g _ i).mpr ⟨hs, rfl⟩, fun g t i => (decode_eq_op_iff g t i).mp⟩

/-- Settles O12: a command is taken where the unit is ready, and an answer selects by its fields and the signals. -/
theorem operationMapSelects : Obligations.OperationMapSelects := by
  unfold Obligations.OperationMapSelects
  refine fun s => ⟨rfl, fun x => ?_, fun w info => deliver_snkRsp w info s, ?_, fun w info => deliver_srcRsp w info s⟩
  · split
    · next hp => rw [deliver_canonical]; exact (deliver_encStart x s).trans (if_pos hp)
    · next hp => exact deliver_encCmd_of_ready x hp
  · split
    · next hp => rw [deliver_canonical]; exact (deliver_decStart s).trans (if_pos hp)
    · next hp => exact deliver_decCmd_of_ready hp

/-- Settles O20: the step delivers the word to the unit prepared for it, which selects the operation and answers. -/
theorem tableWordRunsNext : Obligations.TableWordRunsNext := by
  unfold Obligations.TableWordRunsNext
  intro s nbits w i hw hd
  obtain ⟨t, ht, hsel⟩ := decodeTableWord_eq_some hd
  have hrun : deliver t (s.prepareFor t) = exec i (s.prepareFor t) :=
    deliver_of_op ((decode_prepareFor ht hw).trans hsel)
  refine ⟨t, ht, ?_, ?_⟩
  · rw [State.withFetchWord, ht]
    exact (step_cons rfl).trans hrun
  · rw [← hrun]
    exact deliver_answers (fitsPort_of_tableTransfer ht _)

/-- Settles O14: the phase is the first test of every operation but RESET. -/
theorem operationsOutOfPhaseChangeNothing : Obligations.OperationsOutOfPhaseChangeNothing := by
  unfold Obligations.OperationsOutOfPhaseChangeNothing
  intro s
  refine ⟨fun hp _ => if_pos hp, fun hp => ⟨if_neg hp, if_neg hp, fun _ => if_neg hp⟩, fun hp => if_pos hp, fun hp => ?_⟩
  exact ⟨fun _ => if_neg hp, fun _ => if_neg hp, fun _ => if_neg hp, if_neg hp, fun _ => if_neg hp⟩

/-- Settles O15: in phase RUN the second test of each of these operations is MORE or OVF. -/
theorem siblingOperationsRefused : Obligations.SiblingOperationsRefused := by
  unfold Obligations.SiblingOperationsRefused
  intro s
  refine ⟨fun hp hv => ?_, fun hp hv => ?_, fun g hp ho => ?_, fun g hp ho => ?_, fun b hp ho => ?_⟩
  · exact (if_pos hp).trans (if_pos (s.encMore_iff.mpr hv))
  · exact (if_pos hp).trans (if_neg (mt s.encMore_iff.mp (not_not_intro hv)))
  · exact (if_pos hp).trans (if_pos ((s.ovf_iff _).mpr (by rwa [wireByte_toNat])))
  · exact (if_pos hp).trans (if_pos ((s.ovf_iff _).mpr (by rwa [wireByte_toNat])))
  · exact (if_pos hp).trans (if_neg (mt (s.ovf_iff b).mp (Nat.not_le.mpr ho)))

/-- Settles O18, by computing the decoder on the twelve words. -/
theorem specWordsDecode : Obligations.SpecWordsDecode := by
  unfold Obligations.SpecWordsDecode
  decide

end Sys2Proof
end

section
/-! SUPPORT. The encoder's operations (spec/40_encoder.md R90 to R96, R101): its datapath as numbers, what each
operation answers where its condition holds, and the events and operands that select none. -/

namespace Sys2Proof

namespace Machine

/-! ### The datapath (R90) -/

/-- The continuation bit stands above the group. -/
theorem group_or_contBit (v : Nat) : v % 128 ||| 0x80 = v % 128 + 128 := by
  rw [Nat.or_comm, Nat.add_comm]
  exact (Nat.two_pow_add_eq_or_of_lt (i := 7) (Nat.mod_lt v (by decide)) 1).symm

theorem State.encByte_of_final {s : State} (hv : s.encV.toNat / 128 = 0) :
    s.encByte = BitVec.ofNat 8 (s.encV.toNat % 128) := by
  rw [State.encByte_eq_ofNat, if_neg (by omega), Nat.add_zero]

theorem State.encByte_of_more {s : State} (hv : s.encV.toNat / 128 ≠ 0) :
    s.encByte = BitVec.ofNat 8 (s.encV.toNat % 128) ||| 0x80#8 := by
  rw [State.encByte_eq_ofNat, if_pos (by omega), ← group_or_contBit, BitVec.ofNat_or]

/-- Where bits stand above the low 7, what NEXT leaves is 7 bits narrower (R97). -/
theorem next_lt_two_pow {v w : Nat} (hv : 128 ≤ v) (hw : v < 2 ^ w) : 7 < w ∧ v / 128 - 1 < 2 ^ (w - 7) := by
  have h7 : 7 < w := (Nat.pow_lt_pow_iff_right Nat.one_lt_two).mp (hv.trans_lt hw)
  have hdiv : v / 128 < 2 ^ (w - 7) :=
    Nat.div_lt_of_lt_mul (by rwa [show 128 = 2 ^ 7 from rfl, ← pow_add, Nat.add_sub_cancel' h7.le])
  exact ⟨h7, by omega⟩

theorem State.encNext_lt {s : State} (hv : 128 ≤ s.encV.toNat) : s.encNext.toNat < 2 ^ (s.cfg.wEnc - 7) := by
  rw [State.encNext_toNat s hv]
  exact (next_lt_two_pow hv s.encV.isLt).2

/-! ### What each operation answers where its condition holds (R91 to R94) -/

theorem State.beginEnc_ofNat_encV {s : State} {x : Nat} (hx : x < 2 ^ s.cfg.wEnc) :
    (s.beginEnc (BitVec.ofNat s.cfg.wEnc x)).encV.toNat = x :=
  (BitVec.toNat_ofNat x s.cfg.wEnc).trans (Nat.mod_eq_of_lt hx)

theorem deliver_encCmd_beginEnc {s : State} {x : Nat} (hp : s.encPhase ≠ .run) (hx : x < 2 ^ s.cfg.wEnc) :
    deliver (.encCmd x) s = .next (s.beginEnc (BitVec.ofNat s.cfg.wEnc x)) :=
  (deliver_encStart x s).trans ((if_neg hp).trans (if_pos hx))

theorem exec_encEmitFinal_of_final {s : State} (hp : s.encPhase = .run) (hv : s.encV.toNat / 128 = 0) :
    exec .encEmitFinal s = .next ((s.pushSink s.encByte).completeOk .enc) :=
  (if_pos hp).trans (if_neg (mt s.encMore_iff.mp (not_not_intro hv)))

theorem exec_encEmitCont_of_more {s : State} (hp : s.encPhase = .run) (hv : s.encV.toNat / 128 ≠ 0) :
    exec .encEmitCont s = .next (s.pushSink s.encByte).loadNext :=
  (if_pos hp).trans (if_pos (s.encMore_iff.mpr hv))

theorem exec_encAbort_of_has {s : State} {info : Nat} (hp : s.encPhase = .run) (hf : s.cfg.io.has info = true) :
    exec (.encAbort info) s = .next (s.raise .enc (.ioFailure ⟨info, hf⟩)) :=
  (if_pos hp).trans (by rw [ioValue_of_has hf])

/-- The sink's `Accept` word runs ENC.EMIT.FINAL where no bits stand above the low 7 (R78, R80). -/
theorem deliver_accept_of_final {s : State} (info : Nat) (hp : s.encPhase = .run) (hv : s.encV.toNat / 128 = 0) :
    deliver (.snkRsp 0b0#1 info) s = exec .encEmitFinal s := by
  rw [deliver_snkRsp, if_neg (not_not_intro hp), if_neg (by decide), if_pos hv]

/-- The sink's `Accept` word runs ENC.EMIT.CONT where bits stand above the low 7 (R78, R80). -/
theorem deliver_accept_of_more {s : State} (info : Nat) (hp : s.encPhase = .run) (hv : s.encV.toNat / 128 ≠ 0) :
    deliver (.snkRsp 0b0#1 info) s = exec .encEmitCont s := by
  rw [deliver_snkRsp, if_neg (not_not_intro hp), if_neg (by decide), if_neg hv]

/-- The sink's `Fail` word runs ENC.ABORT whatever MORE is (R78, R80). -/
theorem deliver_fail_of_run {s : State} (info : Nat) (hp : s.encPhase = .run) :
    deliver (.snkRsp 0b1#1 info) s = exec (.encAbort info) s := by
  rw [deliver_snkRsp, if_neg (not_not_intro hp), if_pos (by decide)]

end Machine

open Machine

/-- Settles O21: the signals' values are the datapath laws; for W of at most 7 nothing stands above the group. -/
theorem encoderDatapath : Obligations.EncoderDatapath := by
  unfold Obligations.EncoderDatapath
  intro s
  have hle : 128 ≤ s.encV.toNat ↔ s.encV.toNat / 128 ≠ 0 := by omega
  refine ⟨s.encGroup_toNat, s.encRest_toNat, s.encMore_iff, ?_, fun hm => ?_, fun hw => ?_, fun hp => ?_⟩
  · rw [State.encByte_toNat, group_or_contBit]
    simp only [hle]
    split <;> rfl
  · exact s.encNext_toNat (hle.mpr (s.encMore_iff.mp hm))
  · have hlt : s.encV.toNat < 2 ^ 7 := s.encV.isLt.trans_le (Nat.pow_le_pow_right Nat.two_pos hw)
    exact ⟨s.encRest_toNat.trans (Nat.div_eq_of_lt hlt), s.encMore_eq.trans (decide_eq_false (Nat.not_le.mpr hlt)),
      s.encGroup_toNat.trans (Nat.mod_eq_of_lt hlt)⟩
  · rw [State.snkData_eq, if_pos hp]

/-- Settles O2: the command is taken in IDLE and in DONE, and BYTE is then the first byte of the value loaded. -/
theorem encStartRuns : Obligations.EncStartRuns := by
  unfold Obligations.EncStartRuns
  intro s x hrest hx
  have hp : s.encPhase ≠ .run := by obtain h | h := hrest <;> rw [h] <;> nofun
  have hd := deliver_encCmd_beginEnc hp hx
  have hv := State.beginEnc_ofNat_encV hx
  refine ⟨_, (deliver_encCmd_of_ready x hp).symm.trans hd, hd, hv, rfl, rfl, rfl, rfl, rfl, rfl, ?_, rfl,
    ⟨rfl, rfl, rfl, rfl, rfl, rfl⟩, ⟨rfl, rfl⟩⟩
  rw [State.snkData_eq, if_pos (State.beginEnc_encPhase ..), Option.map_some, State.encByte_toNat, hv]
  congr 1
  split_ifs <;> omega

/-- Settles O3: with MORE = 0 the byte on offer is the group. -/
theorem encEmitFinalRuns : Obligations.EncEmitFinalRuns := by
  unfold Obligations.EncEmitFinalRuns
  intro s hp hv
  have hx := exec_encEmitFinal_of_final hp hv
  refine ⟨_, hx, fun info => (deliver_accept_of_final info hp hv).trans hx, ?_, rfl, rfl, rfl, rfl,
    ⟨rfl, rfl, rfl, rfl, rfl, rfl⟩, ⟨rfl, rfl⟩⟩
  rw [State.completeOk_enc_sinkStream, State.pushSink_sinkStream, State.encByte_of_final hv]

/-- Settles O4: with MORE = 1 the byte on offer is the group with bit 7 set, and NEXT does not underflow. -/
theorem encEmitContRuns : Obligations.EncEmitContRuns := by
  unfold Obligations.EncEmitContRuns
  intro s hp hv
  have hle : 128 ≤ s.encV.toNat := by omega
  have hx := exec_encEmitCont_of_more hp hv
  refine ⟨_, hx, fun info => (deliver_accept_of_more info hp hv).trans hx, ?_, Nat.one_le_iff_ne_zero.mpr hv,
    s.encNext_toNat hle, State.encNext_lt hle, hp, rfl, rfl, ⟨rfl, rfl, rfl, rfl, rfl, rfl⟩, ⟨rfl, rfl⟩⟩
  rw [State.loadNext_sinkStream, State.pushSink_sinkStream, State.encByte_of_more hv]

/-- Settles O5: error completion at ENC writes phase, status and description only. -/
theorem encAbortRuns : Obligations.EncAbortRuns := by
  unfold Obligations.EncAbortRuns
  intro s info hp hf
  have hx := exec_encAbort_of_has hp hf
  exact ⟨_, hx, (deliver_fail_of_run info hp).trans hx, rfl, rfl, rfl, rfl, rfl, rfl, rfl, rfl,
    ⟨rfl, rfl, rfl, rfl, rfl, rfl⟩, ⟨rfl, rfl⟩⟩

/-- Settles O13: a running unit takes no command, and a unit at rest no answer. -/
theorem eventsWithoutStepChangeNothing : Obligations.EventsWithoutStepChangeNothing := by
  unfold Obligations.EventsWithoutStepChangeNothing
  intro s
  refine ⟨fun hp => ⟨?_, fun x => ?_⟩, fun hp => ⟨?_, fun w info => deliver_snkRsp_unasked w info hp⟩,
    fun hp => ⟨?_, ?_⟩, fun hp => ⟨?_, fun w info => deliver_srcRsp_unasked w info hp⟩⟩
  · exact eq_false_of_ne_true (mt s.encReady_iff.mp (not_not_intro hp))
  · exact (deliver_encStart x s).trans (if_pos hp)
  · exact eq_false_of_ne_true (mt s.snkValid_iff.mp hp)
  · exact eq_false_of_ne_true (mt s.decReady_iff.mp (not_not_intro hp))
  · exact (deliver_decStart s).trans (if_pos hp)
  · exact eq_false_of_ne_true (mt s.srcReq_iff.mp hp)

/-- Settles O16: the operand is read at its port's width before anything is written. -/
theorem operandsTooWideRefused : Obligations.OperandsTooWideRefused := by
  unfold Obligations.OperandsTooWideRefused
  refine fun s => ⟨fun x hp hx => ?_, fun info hp hf => ?_, fun info hp hf => ?_⟩
  · exact (if_neg hp).trans (by rw [atWidth_of_le hx])
  · exact (if_pos hp).trans (by rw [ioValue_of_not (Bool.eq_false_iff.mp hf)])
  · exact (if_pos hp).trans (by rw [ioValue_of_not (Bool.eq_false_iff.mp hf)])

end Sys2Proof
end

section
/-! SUPPORT. Whole encodes (spec/40_encoder.md R97, R99, R100): a value loaded by START and any answers of the sink. -/

namespace Sys2Proof

namespace Machine

/-! ### Transfers delivered in turn -/

theorem deliverAll_of_no_step {ts : List Transfer} {s : State} (h : ∀ tr ∈ ts, deliver tr s = .next s) :
    deliverAll ts s = .next s := by
  induction ts with
  | nil => rfl
  | cons tr ts ih =>
    obtain ⟨htr, hts⟩ := List.forall_mem_cons.mp h
    rw [deliverAll, htr, andThen_next, ih hts]

theorem deliverAll_keeps_rest {ts : List Transfer} {s t : State} (h : deliverAll ts s = .next t) : RestKept s t := by
  induction ts generalizing s with
  | nil => cases h; exact .refl _
  | cons tr ts ih =>
    obtain ⟨u, hu, hut⟩ := andThen_eq_next h
    exact (deliver_keeps_rest hu).trans (ih hut)

/-- Transfers on the encoder's ports leave the decoder alone (R65). -/
theorem deliverAll_keeps_dec {ts : List Transfer} (hts : ∀ tr ∈ ts, tr.event.unit = some .enc) {s t : State}
    (h : deliverAll ts s = .next t) : DecKept s t := by
  induction ts generalizing s with
  | nil => cases h; exact .refl _
  | cons tr ts ih =>
    obtain ⟨htr, hts⟩ := List.forall_mem_cons.mp hts
    obtain ⟨u, hu, hut⟩ := andThen_eq_next h
    exact (deliver_keeps_dec htr hu).trans (ih hts hut)

theorem deliverAll_encCmd {s : State} {x : Nat} (hp : s.encPhase ≠ .run) (hx : x < 2 ^ s.cfg.wEnc)
    (ts : List Transfer) :
    deliverAll (.encCmd x :: ts) s = deliverAll ts (s.beginEnc (BitVec.ofNat s.cfg.wEnc x)) := by
  rw [deliverAll, deliver_encCmd_beginEnc hp hx, andThen_next]

/-! ### Accepted offers -/

theorem unit_of_mem_accepts {n : Nat} {tr : Transfer} (h : tr ∈ List.replicate n Event.snkAccept.transfer) :
    tr.event.unit = some .enc := by
  rw [List.eq_of_mem_replicate h]
  rfl

theorem deliverAll_accepts_unasked {s : State} (n : Nat) (hp : s.encPhase ≠ .run) :
    deliverAll (List.replicate n Event.snkAccept.transfer) s = .next s := by
  refine deliverAll_of_no_step fun tr htr => ?_
  rw [List.eq_of_mem_replicate htr]
  exact deliver_snkRsp_unasked _ _ hp

/-- To accept while the unit runs is to accept that many times: at rest an `Accept` changes nothing (R96). -/
theorem acceptWhileRunning_eq_deliverAll (n : Nat) (s : State) :
    acceptWhileRunning n s = deliverAll (List.replicate n Event.snkAccept.transfer) s := by
  induction n generalizing s with
  | zero => rfl
  | succ n ih =>
    by_cases hp : s.encPhase = .run
    · rw [acceptWhileRunning, if_pos hp, funext ih]
      rfl
    · rw [acceptWhileRunning_of_not_run _ hp, deliverAll_accepts_unasked _ hp]

theorem encodeCall_eq_deliverAll (x : Nat) (s : State) :
    encodeCall x s = deliverAll (.encCmd x :: List.replicate (nmax s.cfg.wEnc) Event.snkAccept.transfer) s := by
  rw [encodeCall, funext (acceptWhileRunning_eq_deliverAll _)]
  rfl

/-- Accepts that come after an encode has ended do not change where it ended. -/
theorem deliverAll_accepts_of_le {m n : Nat} {s t : State} (hmn : m ≤ n) (ht : t.encPhase ≠ .run)
    (h : deliverAll (List.replicate m Event.snkAccept.transfer) s = .next t) :
    deliverAll (List.replicate n Event.snkAccept.transfer) s = .next t := by
  rw [← Nat.add_sub_cancel' hmn, List.replicate_add, deliverAll_append, h, andThen_next,
    deliverAll_accepts_unasked _ ht]

/-- Fewer accepts than `enc` has bytes leave the unit running, with that many of the bytes written (R99). -/
theorem deliverAll_accepts_take {j v : Nat} {s : State} (hp : s.encPhase = .run) (hv : s.encV.toNat = v)
    (hj : j < (enc v).length) :
    ∃ t, deliverAll (List.replicate j Event.snkAccept.transfer) s = .next t ∧ t.encPhase = .run ∧
      t.sinkStream = s.sinkStream ++ (enc v).take j := by
  induction j generalizing s v with
  | zero => exact ⟨s, rfl, hp, (List.append_nil _).symm⟩
  | succ j ih =>
    subst hv
    cases hm : s.encMore with
    | false =>
      rw [State.enc_encV_of_final hm, List.length_singleton] at hj
      omega
    | true =>
      rw [State.enc_encV_of_more hm] at hj ⊢
      obtain ⟨t, ht, hrun, hsink⟩ := ih (s := (s.pushSink s.encByte).loadNext) hp rfl (Nat.lt_of_succ_lt_succ hj)
      refine ⟨t, ?_, hrun, ?_⟩
      · rw [List.replicate_succ, deliverAll, deliver_snkAccept, if_pos hp, if_pos hm, andThen_next, ht]
      · rw [hsink, List.take_succ_cons, State.loadNext_sinkStream, State.pushSink_sinkStream, List.append_assoc]
        rfl

/-- A failure after fewer accepts than `enc` has bytes ends the encode and writes no byte (R99). -/
theorem deliverAll_accepts_fail {j v info : Nat} {s : State} (hp : s.encPhase = .run) (hv : s.encV.toNat = v)
    (hj : j < (enc v).length) (hf : s.cfg.io.has info = true) :
    ∃ t, deliverAll (List.replicate j Event.snkAccept.transfer ++ [(Event.snkFail info).transfer]) s = .next t ∧
      t.sinkStream = s.sinkStream ++ (enc v).take j ∧ t.encPhase = .done ∧ t.encStatus = .ioFailure ∧
      t.encInfo.val = info := by
  obtain ⟨u, hu, hrun, hsink⟩ := deliverAll_accepts_take hp hv hj
  have hfu : u.cfg.io.has info = true := by rwa [(deliverAll_keeps_rest hu).cfg]
  refine ⟨u.raise .enc (.ioFailure ⟨info, hfu⟩), ?_, hsink, rfl, rfl, rfl⟩
  rw [deliverAll_append, hu, andThen_next, deliverAll_singleton, deliver_snkFail, if_pos hrun, dif_pos hfu]

/-- Each accept after which the encode still runs takes seven bits off the bound of ENC_V (R97). -/
theorem deliverAll_accepts_bound {k w : Nat} {s t : State} (hp : s.encPhase = .run) (hw : 0 < w)
    (hv : s.encV.toNat < 2 ^ w) (h : deliverAll (List.replicate k Event.snkAccept.transfer) s = .next t)
    (ht : t.encPhase = .run) : t.encV.toNat < 2 ^ (w - 7 * k) ∧ 7 * k < w := by
  induction k generalizing s w with
  | zero => cases h; exact ⟨hv, hw⟩
  | succ k ih =>
    rw [List.replicate_succ, deliverAll, deliver_snkAccept, if_pos hp] at h
    cases hm : s.encMore with
    | true =>
      rw [if_pos hm, andThen_next] at h
      have hle : 128 ≤ s.encV.toNat := of_decide_eq_true (s.encMore_eq ▸ hm)
      obtain ⟨h7, hnext⟩ := next_lt_two_pow hle hv
      rw [← s.encNext_toNat hle] at hnext
      obtain ⟨hbound, hk⟩ := ih (s := (s.pushSink s.encByte).loadNext) (w := w - 7) hp (by omega) hnext h
      exact ⟨by rwa [Nat.mul_succ, Nat.add_comm, ← Nat.sub_sub], by omega⟩
    | false =>
      rw [if_neg (Bool.eq_false_iff.mp hm), andThen_next,
        deliverAll_accepts_unasked _ (by rw [State.completeOk_enc_encPhase]; nofun)] at h
      cases h
      cases ht

/-! ### Any answers -/

/-- What an answer does at a running encoder: it takes the byte and leaves the rest of `enc`, or it ends the encode. -/
theorem deliver_snkRsp_progress {s : State} (w : SnkWord) {info : Nat} (hp : s.encPhase = .run)
    (hf : s.cfg.io.has info = true) :
    (s.encMore = true ∧ deliver (.snkRsp w info) s = .next (s.pushSink s.encByte).loadNext) ∨
      ∃ t, deliver (.snkRsp w info) s = .next t ∧ t.encPhase = .done := by
  rw [deliver_canonical]
  obtain he | he := event_snkRsp w info
  · rw [he, deliver_snkAccept, if_pos hp]
    cases hm : s.encMore with
    | true => exact .inl ⟨rfl, rfl⟩
    | false => exact .inr ⟨_, rfl, rfl⟩
  · rw [he, deliver_snkFail, if_pos hp, dif_pos hf]
    exact .inr ⟨_, rfl, rfl⟩

/-- As many answers as `enc` has bytes end a running encode, whatever they are (R100). -/
theorem deliverAll_answers_end {as : List (SnkWord × Nat)} {s : State} (hp : s.encPhase = .run)
    (has : ∀ a ∈ as, s.cfg.io.has a.2 = true) (hn : (enc s.encV.toNat).length ≤ as.length) :
    ∃ t, deliverAll (as.map (fun a => .snkRsp a.1 a.2)) s = .next t ∧ t.encPhase = .done := by
  induction as generalizing s with
  | nil => exact absurd hn (Nat.not_le.mpr (length_enc_pos _))
  | cons a as ih =>
    obtain ⟨ha, has⟩ := List.forall_mem_cons.mp has
    rw [List.map_cons, deliverAll]
    obtain ⟨hm, hd⟩ | ⟨t, hd, hdone⟩ := deliver_snkRsp_progress a.1 hp ha
    · rw [State.enc_encV_of_more hm] at hn
      rw [hd, andThen_next]
      exact ih (s := (s.pushSink s.encByte).loadNext) hp has (Nat.le_of_succ_le_succ hn)
    · refine ⟨t, ?_, hdone⟩
      rw [hd, andThen_next]
      refine deliverAll_of_no_step fun tr htr => ?_
      obtain ⟨b, -, rfl⟩ := List.mem_map.mp htr
      exact deliver_snkRsp_unasked _ _ (by rw [hdone]; nofun)

end Machine

open Machine

/-- Settles O47: START loads a value below 2^W, and each accept takes seven bits off the bound. -/
theorem runningEncodeBound : Obligations.RunningEncodeBound := by
  unfold Obligations.RunningEncodeBound
  intro s t x k hp hx h ht
  rw [deliverAll_encCmd hp hx] at h
  obtain ⟨hbound, hk⟩ := deliverAll_accepts_bound (State.beginEnc_encPhase ..) s.cfg.wEnc_pos
    (BitVec.isLt (BitVec.ofNat s.cfg.wEnc x)) h ht
  obtain ⟨hceil, -⟩ := nmax_is_ceiling s.cfg.wEnc
  exact ⟨hbound, hk, by omega⟩

/-- Settles O48: `enc x` is what ENCODE writes (`acceptWhileRunning_writes_enc`), its first bytes are what fewer accepts
write, and a failure then writes no byte. -/
theorem encoderAgreesWithEnc : Obligations.EncoderAgreesWithEnc := by
  unfold Obligations.EncoderAgreesWithEnc
  intro s x hp hx
  have hv := State.beginEnc_ofNat_encV hx
  refine ⟨?_, fun j hj => ?_, fun j info hj hf => ?_⟩
  · obtain ⟨t, ht, hst⟩ := acceptWhileRunning_writes_enc (s := s.beginEnc (BitVec.ofNat s.cfg.wEnc x)) rfl le_rfl
    rw [acceptWhileRunning_eq_deliverAll, hv] at ht
    rw [hv] at hst
    have hrun := (deliverAll_encCmd hp hx _).trans ht
    have hdec : DecKept s t :=
      deliverAll_keeps_dec (List.forall_mem_cons.mpr ⟨rfl, fun _ => unit_of_mem_accepts⟩) hrun
    refine ⟨t, hrun, hst.sink, hst.phase, hst.status, hdec, deliverAll_keeps_rest hrun, ?_⟩
    rw [encodeCall_eq_deliverAll, deliverAll_encCmd hp hx]
    exact deliverAll_accepts_of_le (length_enc_le_nmax s.cfg.wEnc_pos hx) (by rw [hst.phase]; nofun) ht
  · rw [deliverAll_encCmd hp hx]
    exact deliverAll_accepts_take rfl hv hj
  · obtain ⟨t, ht, hsink, hdone, hstatus, hinfo⟩ := deliverAll_accepts_fail (info := info) rfl hv hj hf
    have hrun := (deliverAll_encCmd hp hx _).trans ht
    have hunit : ∀ tr ∈ List.replicate j Event.snkAccept.transfer ++ [(Event.snkFail info).transfer],
        tr.event.unit = some .enc :=
      List.forall_mem_append.mpr ⟨fun _ => unit_of_mem_accepts, List.forall_mem_singleton.mpr rfl⟩
    have hdec : DecKept s t := deliverAll_keeps_dec (List.forall_mem_cons.mpr ⟨rfl, hunit⟩) hrun
    exact ⟨t, hrun, hsink, hdone, hstatus, hinfo, hdec, deliverAll_keeps_rest hrun⟩

/-- Settles O49: `enc x` has at most NMAX bytes, and as many answers end the encode. -/
theorem encodeEndsWithinBound : Obligations.EncodeEndsWithinBound := by
  unfold Obligations.EncodeEndsWithinBound
  intro s x as hp hx hlen has
  rw [deliverAll_encCmd hp hx]
  refine deliverAll_answers_end rfl has ?_
  rw [State.beginEnc_ofNat_encV hx, hlen]
  exact length_enc_le_nmax s.cfg.wEnc_pos hx

end Sys2Proof
end

section
/-! SUPPORT. The decoder's operations (spec/41_decoder.md R110 to R116, R119 to R121): its datapath as numbers, what each
operation answers where its condition holds, and the bounds of its registers. -/

namespace Sys2Proof

namespace Machine

/-! ### The datapath (R110, R120) -/

/-- A whole byte at a bit position is its payload there and its continuation bit at the next group's place (R120). -/
theorem payload_add_contBit_shiftLeft (n sh : Nat) :
    ((n % 128) <<< sh) + ((n / 128) <<< (sh + 7)) = n <<< sh := by
  have hplace : 2 ^ (sh + 7) = 128 * 2 ^ sh := (pow_add 2 sh 7).trans (mul_comm _ _)
  simp only [Nat.shiftLeft_eq]
  calc n % 128 * 2 ^ sh + n / 128 * 2 ^ (sh + 7) = (n % 128 + 128 * (n / 128)) * 2 ^ sh := by rw [hplace]; ring
    _ = n * 2 ^ sh := by rw [Nat.mod_add_div]

/-- Eight bits more than DEC_RESULT hold the exact sum where DEC_SHIFT is below W (R110). -/
theorem State.decSum_lt {s : State} {b : Byte} (h : s.decShift.toNat < s.cfg.wDec) :
    s.decSum b < 2 ^ (s.cfg.wDec + 8) := by
  have hres := s.decResult.isLt
  have hbyte : b.toNat ≤ 255 := Nat.le_of_lt_succ b.isLt
  have hpow : 2 ^ s.decShift.toNat ≤ 2 ^ s.cfg.wDec := Nat.pow_le_pow_right Nat.two_pos h.le
  rw [State.decSum_eq]
  calc s.decResult.toNat + b.toNat * 2 ^ s.decShift.toNat < 2 ^ s.cfg.wDec + 255 * 2 ^ s.cfg.wDec :=
        Nat.add_lt_add_of_lt_of_le hres (Nat.mul_le_mul hbyte hpow)
    _ = 2 ^ (s.cfg.wDec + 8) := by rw [pow_add]; ring

theorem State.ovf_eq_false_iff (s : State) (b : Byte) :
    s.ovf b = false ↔ s.decResult.toNat + b.toNat * 2 ^ s.decShift.toNat < 2 ^ s.cfg.wDec := by
  rw [State.ovf_eq, decide_eq_false_iff_not, Nat.not_le]

theorem wireByte_eq_ofNat (c : Bool) (g : Payload) :
    wireByte c g = BitVec.ofNat 8 (g.toNat + if c then 128 else 0) := by
  rw [← wireByte_toNat, BitVec.ofNat_toNat, BitVec.setWidth_eq]

/-! ### What each operation answers where its condition holds (R111 to R116) -/

theorem exec_decStart_of_ready {s : State} (hp : s.decPhase ≠ .run) : exec .decStart s = .next s.beginDec := if_neg hp

theorem exec_decByteFinal_of_fits {s : State} {g : Payload} (hp : s.decPhase = .run)
    (ho : s.ovf (wireByte false g) = false) :
    exec (.decByteFinal g) s = .next ((s.accumulate (wireByte false g)).completeOk .dec) :=
  (if_pos hp).trans (if_neg (Bool.eq_false_iff.mp ho))

theorem exec_decByteCont_of_fits {s : State} {g : Payload} (hp : s.decPhase = .run)
    (ho : s.ovf (wireByte true g) = false) :
    exec (.decByteCont g) s = .next (s.accumulate (wireByte true g)).advanceShift :=
  (if_pos hp).trans (if_neg (Bool.eq_false_iff.mp ho))

theorem exec_decOverflow_of_ovf {s : State} {b : Byte} (hp : s.decPhase = .run) (ho : s.ovf b = true) :
    exec (.decOverflow b) s = .next ((s.raise .dec .overflow).takeByte b) :=
  (if_pos hp).trans (if_pos ho)

theorem exec_decEof_of_run {s : State} (hp : s.decPhase = .run) :
    exec .decEof s = .next (s.raise .dec .truncatedInput) := if_pos hp

theorem exec_decFail_of_has {s : State} {info : Nat} (hp : s.decPhase = .run) (hf : s.cfg.io.has info = true) :
    exec (.decFail info) s = .next (s.raise .dec (.ioFailure ⟨info, hf⟩)) :=
  (if_pos hp).trans (by rw [ioValue_of_has hf])

/-- A transfer that carries an operation's event runs that operation where its condition holds (R80). -/
theorem deliver_of_selected {tr : Transfer} {i : Instr} {s : State} (he : tr.event = i.event)
    (hs : i.selectedUnder (s.signals tr) = true) : deliver tr s = exec i s :=
  deliver_of_op ((decode_eq_op_iff _ _ _).mpr ⟨hs, (event_encode i).trans he.symm⟩)

/-- OVF among the signals is that of the byte delivered. -/
theorem State.signals_ovf (s : State) {tr : Transfer} {b : Byte} (he : tr.event = .srcByte b) :
    (s.signals tr).ovf = s.ovf b := by
  simp [State.signals, he]

/-- The source word `000ggggggg` runs DEC.BYTE.FINAL where the sum fits (R78, R80). -/
theorem deliver_finalWord {s : State} {g : Payload} (info : Nat) (hp : s.decPhase = .run)
    (ho : s.ovf (wireByte false g) = false) :
    deliver (.srcRsp (0b000#3 ++ g) info) s = exec (.decByteFinal g) s :=
  deliver_of_selected (event_finalWord g info)
    (by rw [Instr.selectedUnder, s.signals_ovf (event_finalWord g info), ho]; simp [State.signals, hp])

/-- The source word `001ggggggg` runs DEC.BYTE.CONT where the sum fits (R78, R80). -/
theorem deliver_contWord {s : State} {g : Payload} (info : Nat) (hp : s.decPhase = .run)
    (ho : s.ovf (wireByte true g) = false) :
    deliver (.srcRsp (0b001#3 ++ g) info) s = exec (.decByteCont g) s :=
  deliver_of_selected (event_contWord g info)
    (by rw [Instr.selectedUnder, s.signals_ovf (event_contWord g info), ho]; simp [State.signals, hp])

/-- The source word `00cggggggg` runs DEC.OVERFLOW where the sum does not fit, whatever `c` is (R78, R80). -/
theorem deliver_byteWord_of_ovf {s : State} {b : Byte} (info : Nat) (hp : s.decPhase = .run) (ho : s.ovf b = true) :
    deliver (.srcRsp (0b00#2 ++ b) info) s = exec (.decOverflow b) s :=
  deliver_of_selected (event_byteWord b info)
    (by rw [Instr.selectedUnder, s.signals_ovf (event_byteWord b info), ho]; simp [State.signals, hp])

/-- Every source word `01dddddddd` runs DEC.EOF (R78, R80). -/
theorem deliver_endWord {s : State} (d : Byte) (info : Nat) (hp : s.decPhase = .run) :
    deliver (.srcRsp (0b01#2 ++ d) info) s = exec .decEof s :=
  deliver_of_selected (event_endWord d info) (by simp [Instr.selectedUnder, State.signals, hp])

/-- Every source word `1edddddddd` runs DEC.FAIL (R78, R80). -/
theorem deliver_failWord {s : State} (d : BitVec 9) (info : Nat) (hp : s.decPhase = .run) :
    deliver (.srcRsp (0b1#1 ++ d) info) s = exec (.decFail info) s :=
  deliver_of_selected (event_failWord d info) (by simp [Instr.selectedUnder, State.signals, hp])

/-! ### The count shown (R121) -/

/-- SHIFT_MAX is the place of the last of NMAX groups (R10). -/
theorem succ_le_nmax {k w : Nat} (hw : 0 < w) (h : 7 * k ≤ shiftMax w) : k + 1 ≤ nmax w := by
  unfold shiftMax nmax at h
  unfold nmax
  omega

/-- `dec_count` is not cut to its width while DEC_SHIFT is at most SHIFT_MAX (R121). -/
theorem State.decCount_of_shift {s : State} {k : Nat} (hd : s.decPhase = .done) (hk : s.decStatus = .ok)
    (hsh : s.decShift.toNat = 7 * k) (hmax : 7 * k ≤ shiftMax s.cfg.wDec) :
    s.decCount.map BitVec.toNat = some (k + 1) := by
  have hfit : k + 1 < 2 ^ s.cfg.cw := (succ_le_nmax s.cfg.wDec_pos hmax).trans_lt (lt_two_pow_bitsFor _)
  have hdiv : s.decShift.toNat / 7 + 1 = k + 1 := by omega
  rw [State.decCount_eq, if_pos ⟨hd, hk⟩, Option.map_some, hdiv, BitVec.toNat_ofNat, Nat.mod_eq_of_lt hfit]

/-! ### DEC_SHIFT and DEC_RESULT while a decode runs (R113, R119) -/

/-- A continuation byte whose sum fits leaves room for a further byte: DEC_SHIFT moves on by 7 to SHIFT_MAX at most, and so
does not wrap (R113). -/
theorem State.decShift_after_cont {s : State} {b : Byte} {k : Nat} (hsh : s.decShift.toNat = 7 * k)
    (ho : s.ovf b = false) (hb : 128 ≤ b.toNat) :
    (s.accumulate b).advanceShift.decShift.toNat = 7 * (k + 1) ∧ 7 * (k + 1) ≤ shiftMax s.cfg.wDec := by
  have hle : 2 ^ (7 * (k + 1)) ≤ (s.accumulate b).decResult.toNat := by
    rw [State.accumulate_result s b ho, hsh]
    exact (two_pow_le_of_isCont (decide_eq_true hb) (7 * k)).trans (Nat.le_add_left _ _)
  have hmax : 7 * (k + 1) ≤ shiftMax s.cfg.wDec :=
    seven_mul_le_shiftMax ((s.accumulate b).lt_wDec_of_two_pow_le hle)
  refine ⟨(decShift_add_seven s).trans ?_, hmax⟩
  rw [hsh, ← Nat.mul_succ, Nat.mod_eq_of_lt (hmax.trans_lt (shiftMax_lt_two_pow_sw s.cfg))]

/-- The least and the greatest value of `k` continuation bytes (R119 (b)). -/
theorem assemble_bounds_of_isCont {bs : List Byte} (hbs : bs.all isCont = true) :
    sumS bs.length ≤ assemble bs ∧ assemble bs ≤ sumS bs.length + 128 ^ bs.length - 1 := by
  induction bs using List.reverseRecOn with
  | nil => decide
  | append_singleton front b ih =>
    rw [List.all_append, Bool.and_eq_true_iff] at hbs
    obtain ⟨hfront, hb⟩ := hbs
    obtain ⟨hlow, hhigh⟩ := ih hfront
    have hb128 : 128 ≤ b.toNat := by simpa [isCont] using hb
    have hb255 : b.toNat ≤ 255 := Nat.le_of_lt_succ b.isLt
    have hlow' := Nat.mul_le_mul_right (128 ^ front.length) hb128
    have hhigh' := Nat.mul_le_mul_right (128 ^ front.length) hb255
    have hpos : 0 < 128 ^ front.length := Nat.pow_pos (by decide)
    have hsum : sumS (front.length + 1) = sumS front.length + 128 ^ (front.length + 1) := rfl
    rw [assemble_concat, pow_mul, show 2 ^ 7 = 128 from rfl, List.length_append, List.length_singleton, hsum, pow_succ]
    omega

/-- At SHIFT_MAX no continuation byte fits: the group after it would stand at W or above (R119 (e)). -/
theorem State.ovf_of_cont_at_shiftMax {s : State} {b : Byte} (hb : isCont b = true)
    (hsh : s.decShift.toNat = shiftMax s.cfg.wDec) :
    2 ^ (shiftMax s.cfg.wDec + 7) ≤ s.decSum b ∧ s.ovf b = true := by
  have hsum : 2 ^ (shiftMax s.cfg.wDec + 7) ≤ s.decSum b := by
    rw [State.decSum_eq, hsh]
    exact (two_pow_le_of_isCont hb _).trans (Nat.le_add_left _ _)
  have hw : s.cfg.wDec ≤ shiftMax s.cfg.wDec + 7 := by
    unfold shiftMax nmax
    omega
  exact ⟨hsum, decide_eq_true ((Nat.pow_le_pow_right Nat.two_pos hw).trans hsum)⟩

end Machine

open Machine

/-- Settles O30: DEC_RESULT is the value of the k continuation bytes consumed, which bounds it from both sides and with it
DEC_SHIFT. -/
theorem runningDecodeBounds : Obligations.RunningDecodeBounds := by
  unfold Obligations.RunningDecodeBounds
  intro s hinv hp
  have hlt := hinv.decRun.shift_lt hp
  obtain ⟨k, hsh, hk, hcont, hres⟩ := hinv.decRun hp
  have hlen := length_lastN hk
  have hbounds := assemble_bounds_of_isCont hcont
  rw [hlen, ← hres] at hbounds
  refine ⟨k, by omega, hsh, hk, hcont, hres, hbounds, s.decResult.isLt, fun hpos => ?_, hlt,
    hsh ▸ seven_mul_le_shiftMax (hsh ▸ hlt), fun b hb => State.ovf_of_cont_at_shiftMax hb⟩
  have hne : lastN k s.sourceTaken ≠ [] := List.length_pos_iff.mp (hlen.symm ▸ hpos)
  have hle := two_pow_le_assemble hne hcont
  rwa [hlen, ← hres, ← hsh] at hle

/-- Settles O32: DEC_SHIFT is seven times the number of the bytes before the final one. -/
theorem countIsBytesConsumed : Obligations.CountIsBytesConsumed := by
  unfold Obligations.CountIsBytesConsumed
  intro s hinv hd hok
  obtain ⟨k, hsh, hk, henc, hres, hlt⟩ := hinv.decDone hd hok
  have hmax : 7 * k ≤ shiftMax s.cfg.wDec := seven_mul_le_shiftMax (hsh ▸ hlt)
  refine ⟨k + 1, State.decCount_of_shift hd hok hsh hmax, Nat.succ_pos k, succ_le_nmax s.cfg.wDec_pos hmax, henc,
    length_lastN hk, ?_⟩
  rw [State.decValue_eq, if_pos ⟨hd, hok⟩, Option.map_some, hres]

/-- Settles O6: the command is taken in IDLE and in DONE, and in RUN no outcome is shown. -/
theorem decStartRuns : Obligations.DecStartRuns := by
  unfold Obligations.DecStartRuns
  intro s hrest
  have hp : s.decPhase ≠ .run := by obtain h | h := hrest <;> rw [h] <;> nofun
  have hx := exec_decStart_of_ready hp
  exact ⟨_, hx, (deliver_decCmd_of_ready hp).trans hx, rfl, rfl, rfl, rfl, rfl, rfl, rfl, rfl, rfl, rfl, rfl,
    ⟨rfl, rfl, rfl, rfl, rfl⟩, ⟨rfl, rfl⟩⟩

/-- Settles O7: the byte is its payload, and the sum fits its register. -/
theorem decByteFinalRuns : Obligations.DecByteFinalRuns := by
  unfold Obligations.DecByteFinalRuns
  intro s g hp hfit
  have hbyte : (wireByte false g).toNat = g.toNat := wireByte_toNat false g
  have ho : s.ovf (wireByte false g) = false := (s.ovf_eq_false_iff _).mpr (by rwa [hbyte])
  have hres := s.accumulate_result _ ho
  rw [hbyte] at hres
  have hx := exec_decByteFinal_of_fits hp ho
  refine ⟨_, hx, fun info => (deliver_finalWord info hp ho).trans hx, hres, rfl, rfl, congrArg some hres, rfl, rfl, ?_,
    ⟨rfl, rfl, rfl, rfl, rfl⟩, ⟨rfl, rfl⟩⟩
  rw [State.completeOk_dec_sourceTaken, State.accumulate_sourceTaken, wireByte_eq_ofNat]
  rfl

/-- Settles O8: the whole byte is its payload and 128, and a sum that fits leaves DEC_SHIFT room for 7 more. -/
theorem decByteContRuns : Obligations.DecByteContRuns := by
  unfold Obligations.DecByteContRuns
  intro s g hp hfit
  have hbyte : (wireByte true g).toNat = g.toNat + 128 := wireByte_toNat true g
  have ho : s.ovf (wireByte true g) = false := (s.ovf_eq_false_iff _).mpr (by rwa [hbyte])
  have hx := exec_decByteCont_of_fits hp ho
  refine ⟨_, hx, fun info => (deliver_contWord info hp ho).trans hx, ?_, fun hlt => ?_, fun hmod => ?_, hp, rfl, rfl, ?_,
    ⟨rfl, rfl, rfl, rfl, rfl⟩, ⟨rfl, rfl⟩⟩
  · refine (s.accumulate_result _ ho).trans ?_
    rw [hbyte, pow_add]
    ring
  · exact (decShift_add_seven s).trans (Nat.mod_eq_of_lt hlt)
  · have hsh : s.decShift.toNat = 7 * (s.decShift.toNat / 7) := by omega
    obtain ⟨hnew, hmax⟩ := State.decShift_after_cont hsh ho (by omega)
    exact ⟨by omega, hnew.le.trans hmax⟩
  · rw [State.advanceShift_sourceTaken, State.accumulate_sourceTaken, wireByte_eq_ofNat]
    rfl

/-- Settles O9: OVF is tested before the continuation bit, and the byte stays consumed. -/
theorem decOverflowRuns : Obligations.DecOverflowRuns := by
  unfold Obligations.DecOverflowRuns
  intro s b hp hsum
  have ho := (s.ovf_iff b).mpr hsum
  have hx := exec_decOverflow_of_ovf hp ho
  exact ⟨_, hx, fun info => (deliver_byteWord_of_ovf info hp ho).trans hx, rfl, rfl, rfl, rfl, rfl, rfl, rfl,
    ⟨rfl, rfl, rfl, rfl, rfl⟩, ⟨rfl, rfl⟩⟩

/-- Settles O10: error completion at DEC consumes nothing, and the word's low byte is ignored. -/
theorem decEofRuns : Obligations.DecEofRuns := by
  unfold Obligations.DecEofRuns
  intro s hp
  have hx := exec_decEof_of_run hp
  exact ⟨_, hx, fun d info => (deliver_endWord d info hp).trans hx, rfl, rfl, rfl, rfl, rfl, rfl, rfl,
    ⟨rfl, rfl, rfl, rfl, rfl⟩, ⟨rfl, rfl⟩⟩

/-- Settles O11: error completion at DEC records the description, and all other bits of the word are ignored. -/
theorem decFailRuns : Obligations.DecFailRuns := by
  unfold Obligations.DecFailRuns
  intro s info hp hf
  have hx := exec_decFail_of_has hp hf
  exact ⟨_, hx, fun d => (deliver_failWord d info hp).trans hx, rfl, rfl, rfl, rfl, rfl, rfl, rfl, rfl,
    ⟨rfl, rfl, rfl, rfl, rfl⟩, ⟨rfl, rfl⟩⟩

/-- Settles O22: the signals' values are the datapath laws. -/
theorem decoderDatapath : Obligations.DecoderDatapath := by
  unfold Obligations.DecoderDatapath
  intro s b
  refine ⟨payload_toNat b, ?_, rfl, ?_, payload_add_contBit_shiftLeft b.toNat, rfl, decide_eq_true_iff, State.decSum_lt⟩
  · rw [contBit_eq, decide_eq_true_iff]
  · rw [State.decTerm_eq, Nat.shiftLeft_eq]

end Sys2Proof
end

section
/-! SUPPORT. Whole decodes (spec/41_decoder.md R122, R124): START and the answers of a list source, or any answers. -/

namespace Sys2Proof

namespace Machine

/-! ### The passes of `dec_W` (R144) -/

section
variable {w r sh n : Nat} {b : Byte} {bs : List Byte}

theorem decWLoop_of_ovf (h : 2 ^ w ≤ r + b.toNat * 2 ^ sh) : decWLoop w (b :: bs) r sh n = .ovf (n + 1) := by
  rw [decWLoop, Nat.shiftLeft_eq, if_pos h]

theorem decWLoop_of_cont (h : r + b.toNat * 2 ^ sh < 2 ^ w) (hb : 128 ≤ b.toNat) :
    decWLoop w (b :: bs) r sh n = decWLoop w bs (r + b.toNat * 2 ^ sh) (sh + 7) (n + 1) := by
  rw [decWLoop, Nat.shiftLeft_eq, if_neg (Nat.not_le.mpr h), if_neg (Nat.not_lt.mpr hb)]

theorem decWLoop_of_final (h : r + b.toNat * 2 ^ sh < 2 ^ w) (hb : b.toNat < 128) :
    decWLoop w (b :: bs) r sh n = .ok (r + b.toNat * 2 ^ sh) (n + 1) := by
  rw [decWLoop, Nat.shiftLeft_eq, if_neg (Nat.not_le.mpr h), if_pos hb]

end

/-! ### An answer at a running decoder (R112 to R116) -/

section
variable {s : State} {b : Byte}

theorem deliver_srcByte_of_ovf (hp : s.decPhase = .run) (ho : s.ovf b = true) :
    deliver (Event.srcByte b).transfer s = .next ((s.raise .dec .overflow).takeByte b) := by
  rw [deliver_srcByte, if_pos hp, if_pos ho]

theorem deliver_srcByte_of_cont (hp : s.decPhase = .run) (ho : s.ovf b = false) (hb : 128 ≤ b.toNat) :
    deliver (Event.srcByte b).transfer s = .next (s.accumulate b).advanceShift := by
  rw [deliver_srcByte, if_pos hp, if_neg (Bool.eq_false_iff.mp ho), contBit_eq, if_pos (decide_eq_true hb)]

theorem deliver_srcByte_of_final (hp : s.decPhase = .run) (ho : s.ovf b = false) (hb : b.toNat < 128) :
    deliver (Event.srcByte b).transfer s = .next ((s.accumulate b).completeOk .dec) := by
  rw [deliver_srcByte, if_pos hp, if_neg (Bool.eq_false_iff.mp ho), contBit_eq, decide_eq_false (Nat.not_le.mpr hb),
    if_neg nofun]

end

/-! ### DECODE (R82, R122) -/

theorem answerFromList_of_not_run {s : State} (bs : List Byte) (hp : s.decPhase ≠ .run) :
    answerFromList bs s = .next s := by
  cases bs <;> exact if_neg hp

/-- A list source's answers leave the encoder alone (R65). -/
theorem answerFromList_keeps {bs : List Byte} {s t : State} (h : answerFromList bs s = .next t) :
    EncKept s t ∧ RestKept s t := by
  induction bs generalizing s with
  | nil =>
    rw [answerFromList] at h
    split_ifs at h
    · exact ⟨deliver_keeps_enc rfl h, deliver_keeps_rest h⟩
    · cases h; exact ⟨.refl _, .refl _⟩
  | cons b bs ih =>
    rw [answerFromList] at h
    split_ifs at h
    · obtain ⟨u, hu, hut⟩ := andThen_eq_next h
      obtain ⟨henc, hrest⟩ := ih hut
      exact ⟨(deliver_keeps_enc (by rw [event_transfer]; rfl) hu).trans henc, (deliver_keeps_rest hu).trans hrest⟩
    · cases h; exact ⟨.refl _, .refl _⟩

/-- The decoder, having consumed `before`, went on over the source stream `bs` and shows the outcome, with exactly the bytes
consumed that the outcome says (R122). -/
def Decoded (before bs : List Byte) (t : State) : DecOutcome → Prop
  | .ok v n =>
    t.decStatus.code = 0 ∧ t.decValue.map BitVec.toNat = some v ∧ t.decCount.map BitVec.toNat = some n ∧
      t.sourceTaken = before ++ bs.take n
  | .trunc => t.decStatus.code = 1 ∧ t.decValue = none ∧ t.sourceTaken = before ++ bs
  | .ovf n => t.decStatus.code = 2 ∧ t.decValue = none ∧ t.sourceTaken = before ++ bs.take n

/-- A running decode that has consumed `front` goes through the passes of `dec_W` that are left: each pass of the unit is
one of `dec_W`, with DEC_RESULT and DEC_SHIFT for its `r` and `sh`. -/
theorem answerFromList_decodes {bs front before : List Byte} {s : State} (hp : s.decPhase = .run)
    (hsh : s.decShift.toNat = 7 * front.length) (hmax : 7 * front.length ≤ shiftMax s.cfg.wDec)
    (htaken : s.sourceTaken = before ++ front) :
    ∃ t, answerFromList bs s = .next t ∧ t.decPhase = .done ∧
      Decoded before (front ++ bs) t
        (decWLoop s.cfg.wDec bs s.decResult.toNat s.decShift.toNat front.length) := by
  induction bs generalizing s front with
  | nil =>
    refine ⟨s.raise .dec .truncatedInput, ?_, rfl, rfl, rfl, ?_⟩
    · rw [answerFromList, if_pos hp, deliver_srcEnd, if_pos hp]
    · rw [State.raise_dec_sourceTaken, htaken, List.append_nil]
  | cons b bs ih =>
    have hlen : (front ++ [b]).length = front.length + 1 := List.length_append
    have hstream : front ++ b :: bs = (front ++ [b]) ++ bs := List.append_cons front b bs
    have htake : (front ++ b :: bs).take (front.length + 1) = front ++ [b] := by
      rw [hstream, ← hlen, List.take_left]
    have hgrown : s.sourceTaken ++ [b] = before ++ (front ++ [b]) := by rw [htaken, List.append_assoc]
    have hrun : ∀ u, deliver (Event.srcByte b).transfer s = .next u →
        answerFromList (b :: bs) s = answerFromList bs u := fun u hu => by
      rw [answerFromList, if_pos hp, hu, andThen_next]
    cases ho : s.ovf b with
    | true =>
      rw [decWLoop_of_ovf ((s.ovf_iff b).mp ho)]
      refine ⟨_, (hrun _ (deliver_srcByte_of_ovf hp ho)).trans (answerFromList_of_not_run bs nofun), rfl, rfl, rfl, ?_⟩
      rw [htake]
      exact hgrown
    | false =>
      have hfit := (s.ovf_eq_false_iff b).mp ho
      have hres := s.accumulate_result b ho
      by_cases hb : 128 ≤ b.toNat
      · obtain ⟨hnew, hroom⟩ := State.decShift_after_cont hsh ho hb
        rw [decWLoop_of_cont hfit hb, hrun _ (deliver_srcByte_of_cont hp ho hb), hstream, ← hres, ← hlen]
        have hadd : s.decShift.toNat + 7 = (s.accumulate b).advanceShift.decShift.toNat := by omega
        rw [hadd]
        rw [← hlen] at hnew hroom
        exact ih (s := (s.accumulate b).advanceShift) hp hnew hroom hgrown
      · have hfinal : b.toNat < 128 := Nat.lt_of_not_le hb
        rw [decWLoop_of_final hfit hfinal]
        refine ⟨(s.accumulate b).completeOk .dec,
          (hrun _ (deliver_srcByte_of_final hp ho hfinal)).trans (answerFromList_of_not_run bs nofun), rfl, rfl,
          congrArg some hres, State.decCount_of_shift rfl rfl hsh hmax, ?_⟩
        rw [htake]
        exact hgrown

/-- `DECODE` at a unit at rest ends with the outcome of `dec_W` (R122). -/
theorem decodeCall_decodes {s : State} (bs : List Byte) (hp : s.decPhase ≠ .run) :
    ∃ t, decodeCall bs s = .next t ∧ t.decPhase = .done ∧ EncKept s t ∧ RestKept s t ∧
      Decoded s.sourceTaken bs t (decW s.cfg.wDec bs) := by
  obtain ⟨t, ht, hdone, hdec⟩ := answerFromList_decodes (bs := bs) (s := s.beginDec) (front := []) rfl rfl
    (Nat.zero_le _) (List.append_nil _).symm
  obtain ⟨henc, hrest⟩ := answerFromList_keeps ht
  refine ⟨t, ?_, hdone, .trans (t := s.beginDec) ⟨rfl, rfl, rfl, rfl, rfl⟩ henc,
    .trans (t := s.beginDec) ⟨rfl, rfl⟩ hrest, hdec⟩
  rw [decodeCall, deliver_decStart, if_neg hp, andThen_next, ht]

/-! ### Any answers (R124) -/

/-- What an answer does at a running decoder: the decode goes on with DEC_SHIFT 7 up, at SHIFT_MAX at most, or it ends. -/
theorem deliver_srcRsp_progress {s : State} (w : SrcWord) {info k : Nat} (hp : s.decPhase = .run)
    (hsh : s.decShift.toNat = 7 * k) (hf : s.cfg.io.has info = true) :
    (∃ b, deliver (.srcRsp w info) s = .next (s.accumulate b).advanceShift ∧
        (s.accumulate b).advanceShift.decShift.toNat = 7 * (k + 1) ∧ 7 * (k + 1) ≤ shiftMax s.cfg.wDec) ∨
      ∃ t, deliver (.srcRsp w info) s = .next t ∧ t.decPhase = .done := by
  rw [deliver_canonical]
  obtain ⟨b, he⟩ | he | he := event_srcRsp w info <;> rw [he]
  · cases ho : s.ovf b with
    | true => exact .inr ⟨_, deliver_srcByte_of_ovf hp ho, rfl⟩
    | false =>
      by_cases hb : 128 ≤ b.toNat
      · exact .inl ⟨b, deliver_srcByte_of_cont hp ho hb, State.decShift_after_cont hsh ho hb⟩
      · exact .inr ⟨_, deliver_srcByte_of_final hp ho (Nat.lt_of_not_le hb), rfl⟩
  · rw [deliver_srcEnd, if_pos hp]
    exact .inr ⟨_, rfl, rfl⟩
  · rw [deliver_srcFail, if_pos hp, dif_pos hf]
    exact .inr ⟨_, rfl, rfl⟩

/-- A decode that has consumed `k` bytes ends with any NMAX - k answers. -/
theorem deliverAll_srcRsps_end {as : List (SrcWord × Nat)} {s : State} {k : Nat} (hp : s.decPhase = .run)
    (hsh : s.decShift.toNat = 7 * k) (hmax : 7 * k ≤ shiftMax s.cfg.wDec) (has : ∀ a ∈ as, s.cfg.io.has a.2 = true)
    (hn : nmax s.cfg.wDec ≤ k + as.length) :
    ∃ t, deliverAll (as.map (fun a => .srcRsp a.1 a.2)) s = .next t ∧ t.decPhase = .done := by
  induction as generalizing s k with
  | nil => exact absurd hn (Nat.not_le.mpr (succ_le_nmax s.cfg.wDec_pos hmax))
  | cons a as ih =>
    obtain ⟨ha, has⟩ := List.forall_mem_cons.mp has
    rw [List.map_cons, deliverAll]
    obtain ⟨b, hd, hnew, hroom⟩ | ⟨t, hd, hdone⟩ := deliver_srcRsp_progress a.1 hp hsh ha
    · rw [List.length_cons, ← Nat.add_assoc, Nat.add_right_comm] at hn
      rw [hd, andThen_next]
      exact ih (s := (s.accumulate b).advanceShift) hp hnew hroom has hn
    · refine ⟨t, ?_, hdone⟩
      rw [hd, andThen_next]
      refine deliverAll_of_no_step fun tr htr => ?_
      obtain ⟨c, -, rfl⟩ := List.mem_map.mp htr
      exact deliver_srcRsp_unasked _ _ (by rw [hdone]; nofun)

end Machine

open Machine

/-- Settles O50: from START on, each pass of the unit is one of `dec_W` (`answerFromList_decodes`). -/
theorem decoderAgreesWithDecW : Obligations.DecoderAgreesWithDecW := by
  unfold Obligations.DecoderAgreesWithDecW
  intro s bs hp
  obtain ⟨t, ht, hdone, henc, hrest, hdec⟩ := decodeCall_decodes bs hp
  refine ⟨t, ht, hdone, henc, hrest, ?_⟩
  cases ho : decW s.cfg.wDec bs <;> exact ho ▸ hdec

/-- Settles O51: an answer that does not end the decode moves DEC_SHIFT on by 7, and SHIFT_MAX leaves room for NMAX - 1
such answers. -/
theorem decodeEndsWithinBound : Obligations.DecodeEndsWithinBound := by
  unfold Obligations.DecodeEndsWithinBound
  intro s as hp hlen has
  have hx := (deliver_decCmd_of_ready hp).trans (exec_decStart_of_ready hp)
  rw [deliverAll, hx, andThen_next]
  exact deliverAll_srcRsps_end (s := s.beginDec) (k := 0) rfl rfl (Nat.zero_le _) has (by rw [Nat.zero_add, hlen]; rfl)

end Sys2Proof
end

section
/-! SUPPORT. `enc` and the sequences `cont* final` (spec/42_functions_and_laws.md R142, R147, R148, spec/30_encoding.md R71,
R73): `enc` and `assemble` are inverse to each other between the natural numbers and these sequences. -/

namespace Sys2Proof

namespace Machine

/-! ### The recursion of `enc` (R142) -/

/-- A value above one byte is its lowest group and the value that the rest of its bytes encode. -/
theorem enc_group_add {g : Nat} (hg : g < 128) (q : Nat) :
    enc (g + 128 * (q + 1)) = BitVec.ofNat 8 (g + 128) :: enc q := by
  have hmod : (g + 128 * (q + 1)) % 128 = g := by omega
  have hrest : (g + 128 * (q + 1)) / 128 - 1 = q := by omega
  rw [enc_of_le (by omega), hmod, hrest]

/-- The induction along the bytes of an encoding: a value of one byte, or a group before the value of the rest. -/
theorem enc_induction {P : Nat → Prop} (final : ∀ v, v < 128 → P v)
    (cont : ∀ g q, g < 128 → P q → P (g + 128 * (q + 1))) (v : Nat) : P v := by
  induction v using Nat.strong_induction_on with
  | _ v ih =>
    by_cases hv : v < 128
    · exact final v hv
    · have hsplit : v = v % 128 + 128 * (v / 128 - 1 + 1) := by omega
      rw [hsplit]
      exact cont _ _ (Nat.mod_lt _ (by decide)) (ih _ (by omega))

theorem finalByte_toNat {v : Nat} (hv : v < 128) : (BitVec.ofNat 8 v).toNat = v :=
  (BitVec.toNat_ofNat v 8).trans (Nat.mod_eq_of_lt (by omega))

theorem contByte_toNat {g : Nat} (hg : g < 128) : (BitVec.ofNat 8 (g + 128)).toNat = g + 128 :=
  (BitVec.toNat_ofNat (g + 128) 8).trans (Nat.mod_eq_of_lt (by omega))

/-! ### The shape `cont* final` (R71) and its value (R73) -/

theorem isEncoding_cons_iff (b : Byte) (bs : List Byte) :
    isEncoding (b :: bs) = true ↔ (128 ≤ b.toNat ∧ isEncoding bs = true) ∨ (b.toNat < 128 ∧ bs = []) := by
  by_cases hb : 128 ≤ b.toNat
  · simp [isEncoding, isCont, hb, Nat.not_lt.mpr hb]
  · simp [isEncoding, isCont, hb, Nat.lt_of_not_le hb]

theorem assembleAt_cons (sh : Nat) (b : Byte) (bs : List Byte) :
    assembleAt sh (b :: bs) = b.toNat * 2 ^ sh + assembleAt (sh + 7) bs := by
  rw [assembleAt, Nat.shiftLeft_eq]

theorem assemble_cons (b : Byte) (bs : List Byte) : assemble (b :: bs) = b.toNat + 128 * assemble bs := by
  rw [assemble, assembleAt_cons, assembleAt_shift, Nat.pow_zero, Nat.mul_one]
  rfl

theorem assemble_singleton (b : Byte) : assemble [b] = b.toNat := assemble_cons b []

/-- An encoding's bytes: continuation bytes and one final byte. -/
theorem exists_concat_of_isEncoding {bs : List Byte} (h : isEncoding bs = true) :
    ∃ front last, bs = front ++ [last] ∧ front.all isCont = true ∧ isCont last = false := by
  induction bs with
  | nil => cases h
  | cons b bs ih =>
    obtain ⟨hb, hbs⟩ | ⟨hb, rfl⟩ := (isEncoding_cons_iff b bs).mp h
    · obtain ⟨front, last, rfl, hfront, hlast⟩ := ih hbs
      refine ⟨b :: front, last, rfl, ?_, hlast⟩
      rw [List.all_cons, hfront, isCont, decide_eq_true hb, Bool.and_self]
    · exact ⟨[], b, rfl, rfl, decide_eq_false (Nat.not_le.mpr hb)⟩

/-! ### `enc` and `assemble` are inverse to each other (R147) -/

theorem isEncoding_enc (v : Nat) : isEncoding (enc v) = true := by
  induction v using enc_induction with
  | final v hv =>
    rw [enc_of_lt hv, isEncoding_cons_iff, finalByte_toNat hv]
    exact .inr ⟨hv, rfl⟩
  | cont g q hg ih =>
    rw [enc_group_add hg, isEncoding_cons_iff, contByte_toNat hg]
    exact .inl ⟨Nat.le_add_left _ _, ih⟩

/-- The 128 that the continuation bit adds is the 1 taken off the rest, one place up. -/
theorem assemble_enc (v : Nat) : assemble (enc v) = v := by
  induction v using enc_induction with
  | final v hv => rw [enc_of_lt hv, assemble_singleton, finalByte_toNat hv]
  | cont g q hg ih =>
    rw [enc_group_add hg, assemble_cons, ih, contByte_toNat hg]
    omega

theorem enc_assemble {bs : List Byte} (h : isEncoding bs = true) : enc (assemble bs) = bs := by
  induction bs with
  | nil => cases h
  | cons b bs ih =>
    obtain ⟨hb, hbs⟩ | ⟨hb, rfl⟩ := (isEncoding_cons_iff b bs).mp h
    · have hg : b.toNat - 128 < 128 := by omega
      have hsplit : b.toNat + 128 * assemble bs = (b.toNat - 128) + 128 * (assemble bs + 1) := by omega
      rw [assemble_cons, hsplit, enc_group_add hg, ih hbs, Nat.sub_add_cancel hb, BitVec.ofNat_toNat,
        BitVec.setWidth_eq]
    · rw [assemble_singleton, enc_of_lt hb, BitVec.ofNat_toNat, BitVec.setWidth_eq]

theorem enc_injective {v v' : Nat} (h : enc v = enc v') : v = v' := by
  rw [← assemble_enc v, h, assemble_enc]

end Machine

open Machine

/-- Settles O37: the fuel of `enc` is enough (`enc_of_le`), and a shift by 7 divides by 128. -/
theorem encRecursion : Obligations.EncRecursion := by
  unfold Obligations.EncRecursion
  refine ⟨fun v => enc_of_lt, fun v hv => ?_⟩
  rw [Nat.shiftRight_eq_div_pow]
  exact enc_of_le hv

/-- Settles O41: an encoding has the shape `cont* final`. -/
theorem terminationByte : Obligations.TerminationByte := by
  unfold Obligations.TerminationByte
  exact fun v => exists_concat_of_isEncoding (isEncoding_enc v)

end Sys2Proof
end

section
/-! SUPPORT. The decoding functions (spec/42_functions_and_laws.md R143 to R147, R152): what `dec_inf` answers and on which
bytes, `dec_W` against it, and with them the round trips, also at the units (spec/41_decoder.md R123). -/

namespace Sys2Proof

namespace Machine

/-! ### `dec_inf` reads one encoding off the front (R143) -/

section
variable {r sh n : Nat} {b : Byte} {bs : List Byte}

theorem decInfLoop_of_cont (hb : 128 ≤ b.toNat) :
    decInfLoop (b :: bs) r sh n = decInfLoop bs (r + b.toNat * 2 ^ sh) (sh + 7) (n + 1) := by
  rw [decInfLoop, Nat.shiftLeft_eq, if_neg (Nat.not_lt.mpr hb)]

theorem decInfLoop_of_final (hb : b.toNat < 128) :
    decInfLoop (b :: bs) r sh n = .ok (r + b.toNat * 2 ^ sh) (n + 1) := by
  rw [decInfLoop, Nat.shiftLeft_eq, if_pos hb]

end

theorem decInfLoop_append {bs : List Byte} (h : isEncoding bs = true) (tail : List Byte) (r sh n : Nat) :
    decInfLoop (bs ++ tail) r sh n = .ok (r + assembleAt sh bs) (n + bs.length) := by
  induction bs generalizing r sh n with
  | nil => cases h
  | cons b bs ih =>
    obtain ⟨hb, hbs⟩ | ⟨hb, rfl⟩ := (isEncoding_cons_iff b bs).mp h
    · rw [List.cons_append, decInfLoop_of_cont hb, ih hbs, assembleAt_cons, List.length_cons, Nat.add_assoc r,
        Nat.add_assoc n, Nat.add_comm 1]
    · rw [List.cons_append, decInfLoop_of_final hb, assembleAt_cons]
      rfl

/-- What `go` reads is an encoding, whatever follows it. -/
theorem decInfLoop_eq_ok {bs : List Byte} {r sh n v m : Nat} (h : decInfLoop bs r sh n = .ok v m) :
    ∃ front tail, bs = front ++ tail ∧ isEncoding front = true ∧ v = r + assembleAt sh front ∧
      m = n + front.length := by
  induction bs generalizing r sh n with
  | nil => cases h
  | cons b bs ih =>
    by_cases hb : 128 ≤ b.toNat
    · rw [decInfLoop_of_cont hb] at h
      obtain ⟨front, tail, rfl, hfront, rfl, rfl⟩ := ih h
      refine ⟨b :: front, tail, rfl, (isEncoding_cons_iff b front).mpr (.inl ⟨hb, hfront⟩), ?_, ?_⟩
      · rw [assembleAt_cons, Nat.add_assoc]
      · rw [List.length_cons, Nat.add_assoc, Nat.add_comm 1]
    · have hfinal : b.toNat < 128 := Nat.lt_of_not_le hb
      rw [decInfLoop_of_final hfinal] at h
      cases h
      refine ⟨[b], bs, rfl, (isEncoding_cons_iff b []).mpr (.inr ⟨hfinal, rfl⟩), ?_, rfl⟩
      rw [assembleAt_cons]
      rfl

/-- The first byte counts towards the value and the bytes consumed, whatever follows it. -/
theorem decInfLoop_cons_bounds {b : Byte} {bs : List Byte} {r sh n v m : Nat}
    (h : decInfLoop (b :: bs) r sh n = .ok v m) : r + b.toNat * 2 ^ sh ≤ v ∧ n + 1 ≤ m := by
  obtain ⟨front, tail, hbs, hfront, rfl, rfl⟩ := decInfLoop_eq_ok h
  cases front with
  | nil => cases hfront
  | cons c front =>
    cases hbs
    rw [assembleAt_cons, List.length_cons]
    omega

/-! ### `dec_W` against `dec_inf` (R144) -/

/-- The two decoders answer the same while the value fits, and a value that does not fit overflows no later than
`dec_inf` ends. -/
theorem decWLoop_agrees_or_overflows (w : Nat) (bs : List Byte) (r sh n : Nat) :
    (decWLoop w bs r sh n = decInfLoop bs r sh n ∧ ∀ v m, decInfLoop bs r sh n = .ok v m → v < 2 ^ w) ∨
      ∃ m, decWLoop w bs r sh n = .ovf m ∧ ∀ v k, decInfLoop bs r sh n = .ok v k → 2 ^ w ≤ v ∧ m ≤ k := by
  induction bs generalizing r sh n with
  | nil => exact .inl ⟨rfl, nofun⟩
  | cons b bs ih =>
    by_cases hover : 2 ^ w ≤ r + b.toNat * 2 ^ sh
    · refine .inr ⟨n + 1, decWLoop_of_ovf hover, fun v k h => ?_⟩
      obtain ⟨hv, hk⟩ := decInfLoop_cons_bounds h
      exact ⟨hover.trans hv, hk⟩
    · have hfit : r + b.toNat * 2 ^ sh < 2 ^ w := Nat.lt_of_not_le hover
      by_cases hb : 128 ≤ b.toNat
      · rw [decWLoop_of_cont hfit hb, decInfLoop_of_cont hb]
        exact ih _ _ _
      · have hfinal : b.toNat < 128 := Nat.lt_of_not_le hb
        rw [decWLoop_of_final hfit hfinal, decInfLoop_of_final hfinal]
        refine .inl ⟨rfl, fun v m h => ?_⟩
        cases h
        exact hfit

theorem decW_of_decInf_fits {w v n : Nat} {bs : List Byte} (h : decInf bs = .ok v n) (hv : v < 2 ^ w) :
    decW w bs = .ok v n := by
  obtain ⟨heq, -⟩ | ⟨m, -, hbig⟩ := decWLoop_agrees_or_overflows w bs 0 0 0
  · exact heq.trans h
  · exact absurd hv (Nat.not_lt.mpr (hbig v n h).1)

theorem decW_of_decInf_exceeds {w v n : Nat} {bs : List Byte} (h : decInf bs = .ok v n) (hv : 2 ^ w ≤ v) :
    ∃ m, m ≤ n ∧ decW w bs = .ovf m := by
  obtain ⟨-, hfits⟩ | ⟨m, hovf, hbig⟩ := decWLoop_agrees_or_overflows w bs 0 0 0
  · exact absurd hv (Nat.not_le.mpr (hfits v n h))
  · exact ⟨m, (hbig v n h).2, hovf⟩

theorem decW_of_decInf_trunc {w : Nat} {bs : List Byte} (h : decInf bs = .trunc) :
    decW w bs = .trunc ∨ ∃ m, decW w bs = .ovf m := by
  obtain ⟨heq, -⟩ | ⟨m, hovf, -⟩ := decWLoop_agrees_or_overflows w bs 0 0 0
  · exact .inl (heq.trans h)
  · exact .inr ⟨m, hovf⟩

theorem decInf_of_decW_ok {w v n : Nat} {bs : List Byte} (h : decW w bs = .ok v n) :
    decInf bs = .ok v n ∧ v < 2 ^ w := by
  obtain ⟨heq, hfits⟩ | ⟨m, hovf, -⟩ := decWLoop_agrees_or_overflows w bs 0 0 0
  · have hinf : decInf bs = .ok v n := heq.symm.trans h
    exact ⟨hinf, hfits v n hinf⟩
  · cases h.symm.trans hovf

/-! ### The round trips (R145, R146) and concatenated encodings (R152) -/

/-- An encoding decodes to its value, whatever follows it. -/
theorem decInf_append {bs : List Byte} (h : isEncoding bs = true) (tail : List Byte) :
    decInf (bs ++ tail) = .ok (assemble bs) bs.length := by
  rw [decInf, decInfLoop_append h, Nat.zero_add, Nat.zero_add, assemble]

theorem decInf_enc_append (v : Nat) (tail : List Byte) : decInf (enc v ++ tail) = .ok v (enc v).length := by
  rw [decInf_append (isEncoding_enc v), assemble_enc]

theorem decInf_enc (v : Nat) : decInf (enc v) = .ok v (enc v).length := by
  simpa using decInf_enc_append v []

theorem decW_enc_append {w v : Nat} (hv : v < 2 ^ w) (tail : List Byte) :
    decW w (enc v ++ tail) = .ok v (enc v).length :=
  decW_of_decInf_fits (decInf_enc_append v tail) hv

theorem decW_enc {w v : Nat} (hv : v < 2 ^ w) : decW w (enc v) = .ok v (enc v).length :=
  decW_of_decInf_fits (decInf_enc v) hv

theorem exists_enc_append_of_decInf_ok {bs : List Byte} {v n : Nat} (h : decInf bs = .ok v n) :
    ∃ tail, bs = enc v ++ tail ∧ n = (enc v).length := by
  obtain ⟨front, tail, rfl, hfront, rfl, rfl⟩ := decInfLoop_eq_ok h
  rw [Nat.zero_add, Nat.zero_add]
  have hback : enc (assembleAt 0 front) = front := enc_assemble hfront
  exact ⟨tail, by rw [hback], by rw [hback]⟩

/-- Two encodings that begin the same bytes are of one value. -/
theorem eq_of_enc_append_eq {v v' : Nat} {tail tail' : List Byte} (h : enc v ++ tail = enc v' ++ tail') : v = v' := by
  have hdec := decInf_enc_append v tail
  rw [h, decInf_enc_append] at hdec
  cases hdec
  rfl

theorem flatMap_enc_injective {vs vs' : List Nat} (h : vs.flatMap enc = vs'.flatMap enc) : vs = vs' := by
  induction vs generalizing vs' with
  | nil =>
    cases vs' with
    | nil => rfl
    | cons v' vs' =>
      have hempty : enc v' = [] := (List.append_eq_nil_iff.mp h.symm).1
      exact absurd (length_enc_pos v') (by rw [hempty]; nofun)
  | cons v vs ih =>
    cases vs' with
    | nil =>
      have hempty : enc v = [] := (List.append_eq_nil_iff.mp h).1
      exact absurd (length_enc_pos v) (by rw [hempty]; nofun)
    | cons v' vs' =>
      rw [List.flatMap_cons, List.flatMap_cons] at h
      obtain rfl := eq_of_enc_append_eq h
      rw [ih (List.append_cancel_left h)]

end Machine

open Machine

/-- Settles O38: `assemble` undoes `enc`, and the passes of the decoders sum up `assemble`. -/
theorem roundTrip : Obligations.RoundTrip := by
  unfold Obligations.RoundTrip
  exact ⟨decInf_enc, fun _ _ => decW_enc⟩

/-- Settles O39: what is read is an encoding, and `enc` undoes `assemble`. -/
theorem inverseRoundTrip : Obligations.InverseRoundTrip := by
  unfold Obligations.InverseRoundTrip
  intro bs v n h
  obtain ⟨tail, rfl, rfl⟩ := exists_enc_append_of_decInf_ok h
  exact ⟨List.take_left, rfl⟩

/-- Settles O40: `assemble` is the inverse of `enc` on the sequences `cont* final`. -/
theorem canonicalCode : Obligations.CanonicalCode := by
  unfold Obligations.CanonicalCode
  refine ⟨isEncoding_enc, fun _ _ => enc_injective, fun bs hbs => ⟨enc_assemble hbs, ?_⟩, fun w bs v => ⟨?_, ?_⟩⟩
  · simpa using decInf_append hbs []
  · intro h
    obtain ⟨hinf, hv⟩ := decInf_of_decW_ok h
    obtain ⟨htake, -⟩ := inverseRoundTrip bs v bs.length hinf
    exact ⟨by rwa [List.take_length] at htake, hv⟩
  · rintro ⟨rfl, hv⟩
    exact decW_enc hv

/-- Settles O45: `dec_inf` reads the one encoding that its bytes begin with. -/
theorem prefixFree : Obligations.PrefixFree := by
  unfold Obligations.PrefixFree
  refine ⟨fun v v' hbegins => ?_, decInf_enc_append, fun _ _ => flatMap_enc_injective⟩
  obtain ⟨tail, htail⟩ := hbegins
  exact eq_of_enc_append_eq (htail.trans (List.append_nil _).symm)

/-- Settles O46: the equations are the definitions', and a pass of `dec_W` is one of `dec_inf` unless it overflows
(`decWLoop_agrees_or_overflows`). -/
theorem widthLimitedDecoding : Obligations.WidthLimitedDecoding := by
  unfold Obligations.WidthLimitedDecoding
  exact ⟨fun _ => rfl, fun _ _ _ => rfl, fun _ _ _ _ _ => rfl, fun _ _ => rfl, fun _ _ _ _ => rfl,
    fun _ _ _ _ _ _ => rfl,
    fun _ _ => ⟨fun _ _ => decW_of_decInf_fits, fun _ _ => decW_of_decInf_exceeds, decW_of_decInf_trunc⟩⟩

/-- Settles O52: the encoder writes `enc x`, the decoder answers with `dec_W`, and `dec_W` reads `enc x` back. -/
theorem loopBackReturnsValue : Obligations.LoopBackReturnsValue := by
  unfold Obligations.LoopBackReturnsValue
  intro s x tail hpe hpd hxe hxd
  obtain ⟨t, ht, hst⟩ := encodeCall_writes_enc hpe hxe
  obtain ⟨u, hu, hdone, -, -, hdec⟩ := decodeCall_decodes (enc x ++ tail) (hst.dec.phase ▸ hpd)
  rw [hst.rest.cfg, decW_enc_append hxd, hst.dec.taken] at hdec
  obtain ⟨hstatus, hvalue, hcount, htaken⟩ := hdec
  rw [List.take_left] at htaken
  refine ⟨t, u, enc x, ht, hst.sink, hu, ?_, hvalue, hcount, htaken⟩
  rw [State.decStatusOut_eq, if_pos hdone, hstatus]

end Sys2Proof
end

section
/-! SUPPORT. The length and the groups of an encoding (spec/42_functions_and_laws.md R149 to R151), by the bands S_n. -/

namespace Sys2Proof

namespace Machine

/-! ### The bounds S_n of the bands (R149) -/

theorem sumS_closed (n : Nat) : 127 * sumS n + 128 = 128 ^ (n + 1) := by
  induction n with
  | zero => rfl
  | succ n ih =>
    rw [sumS_succ, pow_succ, ← ih]
    ring

theorem sumS_strictMono : StrictMono sumS :=
  strictMono_nat_of_lt_succ fun n => Nat.lt_add_of_pos_right (Nat.pow_pos (by decide))

/-- The least value of `n + 1` bytes takes `7 * n + 1` bits (R150). -/
theorem sumS_lt_two_pow (n : Nat) : sumS n < 2 ^ (7 * n + 1) := by
  have hclosed := sumS_closed n
  rw [pow_succ] at hclosed
  rw [pow_succ, pow_mul, show 2 ^ 7 = 128 from rfl]
  omega

/-- Every value of `7 * n` bits takes `n` bytes at most (R150). -/
theorem two_pow_le_sumS (n : Nat) : 2 ^ (7 * (n + 1)) ≤ sumS (n + 1) := by
  rw [pow_mul]
  exact Nat.le_add_left _ _

/-! ### The bands (R149) -/

theorem length_enc_group_add {g : Nat} (hg : g < 128) (q : Nat) :
    (enc (g + 128 * (q + 1))).length = (enc q).length + 1 := by
  rw [enc_group_add hg, List.length_cons]

/-- S_(n+1) is 128 * (S_n + 1), so a group more moves a value up by one band. -/
theorem length_enc_iff (v n : Nat) : (enc v).length = n + 1 ↔ sumS n ≤ v ∧ v < sumS (n + 1) := by
  induction v using enc_induction generalizing n with
  | final v hv =>
    rw [enc_of_lt hv, List.length_singleton]
    cases n with
    | zero => exact ⟨fun _ => ⟨Nat.zero_le _, hv⟩, fun _ => rfl⟩
    | succ n =>
      have hlow := sumS_succ n
      omega
  | cont g q hg ih =>
    rw [length_enc_group_add hg, Nat.add_right_cancel_iff]
    cases n with
    | zero =>
      have hpos := length_enc_pos q
      have htop : sumS (0 + 1) = 128 := rfl
      omega
    | succ n =>
      rw [ih, sumS_succ (n + 1), sumS_succ n]
      omega

theorem exists_length_enc (v : Nat) : ∃ n, (enc v).length = n + 1 :=
  Nat.exists_eq_add_one.mpr (length_enc_pos v)

theorem length_enc_mono {v v' : Nat} (h : v ≤ v') : (enc v).length ≤ (enc v').length := by
  obtain ⟨n, hn⟩ := exists_length_enc v
  obtain ⟨n', hn'⟩ := exists_length_enc v'
  obtain ⟨hlow, -⟩ := (length_enc_iff v n).mp hn
  obtain ⟨-, hhigh⟩ := (length_enc_iff v' n').mp hn'
  have hlt : n < n' + 1 := sumS_strictMono.lt_iff_lt.mp (hlow.trans_lt (h.trans_lt hhigh))
  rw [hn, hn']
  exact hlt

theorem enc_sumS (n : Nat) : enc (sumS n) = List.replicate n 0x80#8 ++ [0x00#8] := by
  induction n with
  | zero => exact enc_of_lt (by decide)
  | succ n ih =>
    rw [sumS_succ, ← Nat.zero_add (128 * (sumS n + 1)), enc_group_add (by decide), ih]
    rfl

theorem enc_sumS_sub_one (n : Nat) :
    enc (sumS (n + 1) - 1) = List.replicate n 0xFF#8 ++ [0x7F#8] := by
  induction n with
  | zero => exact enc_of_lt (by decide)
  | succ n ih =>
    have hsucc := sumS_succ (n + 1)
    have hpos := sumS_succ n
    have hsplit : sumS (n + 1 + 1) - 1 = 127 + 128 * (sumS (n + 1) - 1 + 1) := by omega
    rw [hsplit, enc_group_add (by decide), ih]
    rfl

/-- The bound NMAX is reached (R150). -/
theorem length_enc_two_pow_sub_one {w : Nat} (hw : 0 < w) : (enc (2 ^ w - 1)).length = nmax w := by
  obtain ⟨hceil, hleast⟩ := nmax_is_ceiling w
  obtain ⟨n, hn⟩ : ∃ n, nmax w = n + 1 := ⟨nmax w - 1, by omega⟩
  rw [hn] at hceil hleast ⊢
  have hlow : sumS n < 2 ^ w := (sumS_lt_two_pow n).trans_le (Nat.pow_le_pow_right Nat.two_pos (by omega))
  have hhigh : 2 ^ w ≤ sumS (n + 1) := (Nat.pow_le_pow_right Nat.two_pos hceil).trans (two_pow_le_sumS n)
  exact (length_enc_iff _ n).mpr (by omega)

/-! ### The groups (R151) -/

/-- Byte `i` is the digit of place `i` of the value's distance from the least of its length. -/
theorem getElem?_enc {v n i : Nat} (h : (enc v).length = n + 1) (hi : i ≤ n) :
    ((enc v)[i]?).map BitVec.toNat = some (((v - sumS n) >>> (7 * i)) % 128 + (if i < n then 128 else 0)) := by
  induction v using enc_induction generalizing n i with
  | final v hv =>
    rw [enc_of_lt hv] at h ⊢
    obtain rfl : 0 = n := Nat.succ.inj h
    obtain rfl : i = 0 := Nat.le_zero.mp hi
    exact congrArg some ((finalByte_toNat hv).trans (Nat.mod_eq_of_lt hv).symm)
  | cont g q hg ih =>
    rw [length_enc_group_add hg, Nat.add_right_cancel_iff] at h
    obtain ⟨m, hm⟩ := exists_length_enc q
    obtain rfl : n = m + 1 := h.symm.trans hm
    obtain ⟨hlow, -⟩ := (length_enc_iff q m).mp hm
    have hdist : g + 128 * (q + 1) - sumS (m + 1) = g + 128 * (q - sumS m) := by
      rw [sumS_succ]
      omega
    rw [enc_group_add hg, hdist]
    cases i with
    | zero =>
      have hdigit : (g + 128 * (q - sumS m)) % 128 = g := by omega
      rw [List.getElem?_cons_zero, Option.map_some, contByte_toNat hg, Nat.mul_zero, Nat.shiftRight_zero, hdigit,
        if_pos (Nat.succ_pos m)]
    | succ i =>
      have hrest : (g + 128 * (q - sumS m)) >>> 7 = q - sumS m := by
        rw [Nat.shiftRight_eq_div_pow]
        omega
      rw [List.getElem?_cons_succ, ih hm (Nat.le_of_succ_le_succ hi), Nat.mul_succ, Nat.add_comm (7 * i),
        Nat.shiftRight_add, hrest]
      simp only [Nat.add_lt_add_iff_right]

end Machine

open Machine

/-- Settles O42: a group more moves a value up by one band. -/
theorem lengthBands : Obligations.LengthBands := by
  unfold Obligations.LengthBands
  refine ⟨length_enc_iff, fun n => ?_, rfl, enc_sumS, enc_sumS_sub_one, fun _ _ => length_enc_mono⟩
  rw [← sumS_closed, Nat.add_sub_cancel, Nat.mul_div_cancel_left _ (by decide)]

/-- Settles O43: 2^w lies above S_(NMAX - 1) and is S_NMAX at most. -/
theorem longestEncoding : Obligations.LongestEncoding := by
  unfold Obligations.LongestEncoding
  exact fun w hw => ⟨fun v hv => ⟨length_enc_pos v, length_enc_le_nmax hw hv⟩, length_enc_two_pow_sub_one hw⟩

/-- Settles O44: the value lies in the band of its length, and its groups are the digits of its place there. -/
theorem closedForm : Obligations.ClosedForm := by
  unfold Obligations.ClosedForm
  intro v n h
  obtain ⟨hlow, hhigh⟩ := (length_enc_iff v n).mp h
  have hband : sumS (n + 1) = sumS n + 128 ^ (n + 1) := rfl
  exact ⟨by omega, fun i => getElem?_enc h⟩

end Sys2Proof
end

section
/-! SUPPORT. Error completion (spec/60_exceptions.md R178), and runs that nothing stops (R175; spec/70_reset_and_hazards.md
R214). -/

namespace Sys2Proof

namespace Machine

/-! ### Error completion leaves the other unit alone, and nothing of a decode is shown (R178) -/

theorem State.raise_enc_keeps_dec (s : State) (k : ErrorKind s.cfg.io) : DecKept s (s.raise .enc k) :=
  ⟨rfl, rfl, rfl, rfl, rfl, rfl⟩

theorem State.raise_dec_keeps_enc (s : State) (k : ErrorKind s.cfg.io) : EncKept s (s.raise .dec k) :=
  ⟨rfl, rfl, rfl, rfl, rfl⟩

theorem State.raise_keeps_rest (s : State) (u : UnitId) (k : ErrorKind s.cfg.io) : RestKept s (s.raise u k) := by
  cases u <;> exact ⟨rfl, rfl⟩

theorem State.decValue_of_not_ok {s : State} (h : s.decStatus ≠ .ok) : s.decValue = none := by
  rw [State.decValue_eq, if_neg fun hs => h hs.right]

theorem State.decCount_of_not_ok {s : State} (h : s.decStatus ≠ .ok) : s.decCount = none := by
  rw [State.decCount_eq, if_neg fun hs => h hs.right]

/-! ### A step, and a run, whose coming transfers fit their ports -/

/-- A step uses up the next transfer, if there is one. -/
theorem step_answers {s : State} (hf : ∀ tr ∈ s.inputs, fitsPort s.cfg tr = true) :
    ∃ t, step s = .next t ∧ t.cfg = s.cfg ∧ t.inputs = s.inputs.tail := by
  cases hi : s.inputs with
  | nil => exact ⟨s, step_nil hi, rfl, hi⟩
  | cons tr rest =>
    have htr : fitsPort s.cfg tr = true := hf tr (hi ▸ List.mem_cons_self)
    obtain ⟨t, ht⟩ := deliver_answers (s := { s with inputs := rest }) htr
    have hrest := deliver_keeps_rest ht
    exact ⟨t, (step_cons hi).trans ht, hrest.cfg, hrest.inputs⟩

/-- The transfers still to come fit as well, so a run goes on after each of its steps. -/
theorem run_answers (n : Nat) {s : State} (hf : ∀ tr ∈ s.inputs, fitsPort s.cfg tr = true) :
    ∃ t, core.run n s = .next t ∧ t.cfg = s.cfg ∧ t.inputs = s.inputs.drop n := by
  induction n generalizing s with
  | zero => exact ⟨s, rfl, rfl, rfl⟩
  | succ n ih =>
    obtain ⟨u, hu, hcfg, hinputs⟩ := step_answers hf
    have hfu : ∀ tr ∈ u.inputs, fitsPort u.cfg tr = true := by
      rw [hcfg, hinputs]
      exact fun tr htr => hf tr (List.mem_of_mem_tail htr)
    obtain ⟨t, ht, htcfg, htinputs⟩ := ih hfu
    refine ⟨t, ?_, htcfg.trans hcfg, ?_⟩
    · rw [run_succ, hu]
      exact ht
    · rw [htinputs, hinputs, List.drop_tail]

end Machine

open Machine

/-- Settles O33, by induction on the number of steps: a step answers, and leaves the instance and the rest of the coming
transfers. -/
theorem presentableRunsNeverStop : Obligations.PresentableRunsNeverStop := by
  unfold Obligations.PresentableRunsNeverStop
  exact fun n _ hf => run_answers n hf

/-- Settles O25: no error kind records status 0, without which no value and no count is shown. -/
theorem errorCompletion : Obligations.ErrorCompletion := by
  unfold Obligations.ErrorCompletion
  intro s k code info
  have hcode : (errorStatus k).code = code := by cases k <;> rfl
  have hinfo (old : s.cfg.io.Info) : (errorInfo old k).val = info old := by cases k <;> rfl
  have hok : (s.raise .dec k).decStatus ≠ .ok := errorStatus_ne_ok k
  exact
    ⟨⟨rfl, hcode, hinfo s.encInfo, rfl, rfl, s.raise_enc_keeps_dec k, s.raise_keeps_rest .enc k⟩,
      ⟨rfl, hcode, hinfo s.decInfo, State.decValue_of_not_ok hok, State.decCount_of_not_ok hok, rfl,
        s.raise_dec_keeps_enc k, s.raise_keeps_rest .dec k⟩⟩

end Sys2Proof
end

section
/-! SUPPORT. RESET (spec/70_reset_and_hazards.md R200, R202), how long an outcome is shown (R209), progress (R214), widths
that differ (R208), and the end of a run (R215). -/

namespace Sys2Proof

namespace Machine

/-! ### RESET, and what a unit in IDLE shows (R200, R202) -/

theorem exec_reset_idles (s : State) :
    ∃ t, exec .reset s = .next t ∧ t.encPhase = .idle ∧ t.encStatus = .ok ∧ t.decPhase = .idle ∧ t.decStatus = .ok ∧
      t.sinkStream = s.sinkStream ∧ t.sourceTaken = s.sourceTaken ∧ RestKept s t :=
  ⟨_, rfl, rfl, rfl, rfl, rfl, rfl, rfl, rfl, rfl⟩

section
variable {s t : State}

theorem State.encStatusOut_of_idle (h : s.encPhase = .idle) : s.encStatusOut = none := by
  rw [State.encStatusOut_eq, h, if_neg nofun]

theorem State.encInfoOut_of_idle (h : s.encPhase = .idle) : s.encInfoOut = none := by
  rw [State.encInfoOut_eq, h, if_neg nofun]

theorem State.snkData_of_idle (h : s.encPhase = .idle) : s.snkData = none := by
  rw [State.snkData_eq, h, if_neg nofun]

theorem State.decStatusOut_of_idle (h : s.decPhase = .idle) : s.decStatusOut = none := by
  rw [State.decStatusOut_eq, h, if_neg nofun]

theorem State.decInfoOut_of_idle (h : s.decPhase = .idle) : s.decInfoOut = none := by
  rw [State.decInfoOut_eq, h, if_neg nofun]

theorem State.decValue_of_idle (h : s.decPhase = .idle) : s.decValue = none := by
  rw [State.decValue_eq, h, if_neg nofun]

theorem State.decCount_of_idle (h : s.decPhase = .idle) : s.decCount = none := by
  rw [State.decCount_eq, h, if_neg nofun]

theorem State.encPorts_of_idle (h : s.encPhase = .idle) :
    s.encReady = true ∧ s.encDone = false ∧ s.snkValid = false := by
  simp [State.encReady, State.encDone, State.snkValid, h]

theorem State.decPorts_of_idle (h : s.decPhase = .idle) :
    s.decReady = true ∧ s.decDone = false ∧ s.srcReq = false := by
  simp [State.decReady, State.decDone, State.srcReq, h]

/-- Whatever its registers hold, an encoder in IDLE shows the same. -/
theorem SameEncOutputs.of_idle (hs : s.encPhase = .idle) (ht : t.encPhase = .idle) : SameEncOutputs s t := by
  obtain ⟨hready, hdone, hvalid⟩ := State.encPorts_of_idle hs
  obtain ⟨tready, tdone, tvalid⟩ := State.encPorts_of_idle ht
  refine ⟨tready.trans hready.symm, tdone.trans hdone.symm, ?_, ?_, tvalid.trans hvalid.symm, ?_⟩
  · rw [State.encStatusOut_of_idle hs, State.encStatusOut_of_idle ht]
  · rw [State.encInfoOut_of_idle hs, State.encInfoOut_of_idle ht]
    rfl
  · rw [State.snkData_of_idle hs, State.snkData_of_idle ht]

/-- Whatever its registers hold, a decoder in IDLE shows the same. -/
theorem SameDecOutputs.of_idle (hs : s.decPhase = .idle) (ht : t.decPhase = .idle) : SameDecOutputs s t := by
  obtain ⟨hready, hdone, hreq⟩ := State.decPorts_of_idle hs
  obtain ⟨tready, tdone, treq⟩ := State.decPorts_of_idle ht
  refine ⟨tready.trans hready.symm, tdone.trans hdone.symm, ?_, ?_, ?_, ?_, treq.trans hreq.symm⟩
  · rw [State.decStatusOut_of_idle hs, State.decStatusOut_of_idle ht]
  · rw [State.decInfoOut_of_idle hs, State.decInfoOut_of_idle ht]
    rfl
  · rw [State.decValue_of_idle hs, State.decValue_of_idle ht]
    rfl
  · rw [State.decCount_of_idle hs, State.decCount_of_idle ht]
    rfl

end

/-! ### A unit that is not running changes by its own START and by RESET only (R96, R118, R209) -/

section
variable {s t : State} {tr : Transfer}

theorem deliver_keeps_enc_of_not_run (h : deliver tr s = .next t) (hp : s.encPhase ≠ .run) (hrst : tr ≠ .rst)
    (hstart : ∀ x, tr ≠ .encCmd x) : EncKept s t := by
  cases tr with
  | rst => exact absurd rfl hrst
  | encCmd x => exact absurd rfl (hstart x)
  | snkRsp w info =>
    rw [deliver_snkRsp_unasked w info hp] at h
    cases h
    exact .refl s
  | decCmd => exact deliver_keeps_enc rfl h
  | srcRsp w info => exact deliver_keeps_enc (event_unit_srcRsp w info) h

theorem deliver_keeps_dec_of_not_run (h : deliver tr s = .next t) (hp : s.decPhase ≠ .run) (hrst : tr ≠ .rst)
    (hstart : tr ≠ .decCmd) : DecKept s t := by
  cases tr with
  | rst => exact absurd rfl hrst
  | encCmd x => exact deliver_keeps_dec rfl h
  | snkRsp w info => exact deliver_keeps_dec (event_unit_snkRsp w info) h
  | decCmd => exact absurd rfl hstart
  | srcRsp w info =>
    rw [deliver_srcRsp_unasked w info hp] at h
    cases h
    exact .refl s

end

/-! ### An answer that fits its port reads as one with a description of the type beside it (R11, R78) -/

theorem exists_snkRsp_of_fits {c : Config} {w : SnkWord} {info : Nat} (hf : fitsPort c (.snkRsp w info) = true) :
    ∃ w' info', c.io.has info' = true ∧ (Transfer.snkRsp w info).event = (Transfer.snkRsp w' info').event := by
  obtain he | he := event_snkRsp w info
  · exact ⟨0, 0, c.io.has_zero, he⟩
  · rw [fitsPort, he] at hf
    exact ⟨w, info, hf, rfl⟩

theorem exists_srcRsp_of_fits {c : Config} {w : SrcWord} {info : Nat} (hf : fitsPort c (.srcRsp w info) = true) :
    ∃ w' info', c.io.has info' = true ∧ (Transfer.srcRsp w info).event = (Transfer.srcRsp w' info').event := by
  obtain ⟨b, he⟩ | he | he := event_srcRsp w info
  · exact ⟨srcWord false false b, 0, c.io.has_zero, he.trans (event_transfer (.srcByte b)).symm⟩
  · exact ⟨srcWord false true 0, 0, c.io.has_zero, he.trans (event_transfer .srcEnd).symm⟩
  · rw [fitsPort, he] at hf
    exact ⟨w, info, hf, rfl⟩

/-- NEXT is nearer to the end of the encode (R93). -/
theorem State.encNext_lt_encV {s : State} (hm : s.encMore = true) : s.encNext.toNat < s.encV.toNat := by
  have hle : 128 ≤ s.encV.toNat := of_decide_eq_true (s.encMore_eq.symm.trans hm)
  have hnext := s.encNext_toNat hle
  omega

/-! ### Rest and the end of a run (R215) -/

theorem Phase.atRest_iff (p : Phase) : p.atRest = true ↔ p = .idle ∨ p = .done := by
  cases p <;> simp [Phase.atRest]

theorem Phase.atRest_iff_ne_run (p : Phase) : p.atRest = true ↔ p ≠ .run := by
  cases p <;> simp [Phase.atRest]

theorem State.atRest_iff (s : State) :
    s.atRest = true ↔ (s.encPhase = .idle ∨ s.encPhase = .done) ∧ (s.decPhase = .idle ∨ s.decPhase = .done) := by
  rw [State.atRest, Bool.and_eq_true_iff, Phase.atRest_iff, Phase.atRest_iff]

theorem State.atRest_iff_ne_run (s : State) : s.atRest = true ↔ s.encPhase ≠ .run ∧ s.decPhase ≠ .run := by
  rw [State.atRest, Bool.and_eq_true_iff, Phase.atRest_iff_ne_run, Phase.atRest_iff_ne_run]

theorem isCommand_iff (tr : Transfer) : isCommand tr = true ↔ tr = .decCmd ∨ ∃ x, tr = .encCmd x := by
  cases tr <;> simp [isCommand]

theorem State.runEnded_iff (s : State) :
    s.runEnded = true ↔ s.atRest = true ∧ ∀ tr ∈ s.inputs, isCommand tr ≠ true := by
  rw [State.runEnded, Bool.and_eq_true_iff, State.commandOffered, Bool.not_eq_true', List.any_eq_false]

theorem forall_not_command_iff (ts : List Transfer) :
    (∀ tr ∈ ts, isCommand tr ≠ true) ↔ .decCmd ∉ ts ∧ ∀ x, .encCmd x ∉ ts := by
  refine ⟨fun h => ⟨fun hd => h _ hd rfl, fun x hx => h _ hx rfl⟩, fun ⟨hd, hx⟩ tr htr hc => ?_⟩
  obtain rfl | ⟨x, rfl⟩ := (isCommand_iff tr).mp hc
  · exact hd htr
  · exact hx x htr

theorem Pins.runEnded_iff (p : Pins) (s : State) :
    p.runEnded s = true ↔ s.atRest = true ∧ p.encCmdValid = false ∧ p.decCmdValid = false := by
  rw [Pins.runEnded, Bool.and_eq_true_iff, Bool.and_eq_true_iff, Bool.not_eq_true', Bool.not_eq_true', and_assoc]

/-- At rest, only a command and RESET cause a step (R96, R118). -/
theorem deliver_of_atRest {s : State} {tr : Transfer} (hs : s.atRest = true) (hrst : tr ≠ .rst)
    (hcmd : isCommand tr ≠ true) : deliver tr s = .next s := by
  obtain ⟨hpe, hpd⟩ := s.atRest_iff_ne_run.mp hs
  cases tr with
  | rst => exact absurd rfl hrst
  | encCmd x => exact absurd rfl hcmd
  | snkRsp w info => exact deliver_snkRsp_unasked w info hpe
  | decCmd => exact absurd rfl hcmd
  | srcRsp w info => exact deliver_srcRsp_unasked w info hpd

end Machine

open Machine

/-- Settles O27: a unit in DONE is not running, so nothing but its START and RESET changes it. -/
theorem outcomeHeldUntilStart : Obligations.OutcomeHeldUntilStart := by
  unfold Obligations.OutcomeHeldUntilStart
  refine fun s t tr h hrst => ⟨fun hp hstart => ?_, fun hp hstart => ?_⟩
  · exact (deliver_keeps_enc_of_not_run h (by rw [hp]; nofun) hrst hstart).sameOutputs
  · exact (deliver_keeps_dec_of_not_run h (by rw [hp]; nofun) hrst hstart).sameOutputs (deliver_keeps_rest h).cfg

/-- Settles O34: an answer that does not end the operation loads NEXT, or moves DEC_SHIFT on by 7. -/
theorem answersMakeProgress : Obligations.AnswersMakeProgress := by
  unfold Obligations.AnswersMakeProgress
  refine fun s => ⟨fun w info hp hf => ?_, fun w info hp hsh hf => ?_⟩
  · obtain ⟨w', info', hio, he⟩ := exists_snkRsp_of_fits hf
    rw [deliver_event he]
    obtain ⟨hm, hd⟩ | ⟨t, hd, hdone⟩ := deliver_snkRsp_progress w' hp hio
    · exact ⟨_, hd, .inr ⟨hp, s.encNext_lt_encV hm⟩⟩
    · exact ⟨t, hd, .inl hdone⟩
  · obtain ⟨w', info', hio, he⟩ := exists_srcRsp_of_fits hf
    have hk : s.decShift.toNat = 7 * (s.decShift.toNat / 7) := by omega
    rw [deliver_event he]
    obtain ⟨b, hd, hnew, -⟩ | ⟨t, hd, hdone⟩ := deliver_srcRsp_progress w' hp hk hio
    · exact ⟨_, hd, .inr ⟨hp, by omega⟩⟩
    · exact ⟨t, hd, .inl hdone⟩

/-- Settles O53: the unit answers as `dec_W` does, which reads `enc x` back where `x` fits and else overflows. -/
theorem widthMismatch : Obligations.WidthMismatch := by
  unfold Obligations.WidthMismatch
  intro s x hp
  obtain ⟨t, ht, hdone, -, -, hdec⟩ := decodeCall_decodes (enc x) hp
  have hstatus : t.decStatusOut = some t.decStatus.code := by rw [State.decStatusOut_eq, if_pos hdone]
  refine ⟨t, ht, hdone, fun hx => ?_, fun hx => ?_⟩
  · rw [decW_enc hx] at hdec
    obtain ⟨hcode, hvalue, -, -⟩ := hdec
    exact ⟨hstatus.trans (congrArg some hcode), hvalue⟩
  · obtain ⟨m, -, hovf⟩ := decW_of_decInf_exceeds (decInf_enc x) hx
    rw [hovf] at hdec
    obtain ⟨hcode, hvalue, -⟩ := hdec
    exact ⟨hstatus.trans (congrArg some hcode), hvalue⟩

/-- Settles O60: the next transfer is RESET, which leaves both units IDLE, or an answer nobody asked for, which does
nothing. -/
theorem endedRunStaysEnded : Obligations.EndedRunStaysEnded := by
  unfold Obligations.EndedRunStaysEnded
  intro s h
  obtain ⟨hrest, hcmd⟩ := s.runEnded_iff.mp h
  cases hi : s.inputs with
  | nil => exact ⟨s, step_nil hi, h, fun _ => ⟨.refl s, .refl s⟩⟩
  | cons tr rest =>
    rw [hi] at hcmd
    obtain ⟨htr, hcoming⟩ := List.forall_mem_cons.mp hcmd
    by_cases hrst : tr = .rst
    · subst hrst
      obtain ⟨t, ht, hpe, -, hpd, -, -, -, hkept⟩ := exec_reset_idles { s with inputs := rest }
      refine ⟨t, (step_cons hi).trans ht, t.runEnded_iff.mpr ⟨t.atRest_iff.mpr ⟨.inl hpe, .inl hpd⟩, ?_⟩,
        fun hne => absurd rfl hne⟩
      rw [hkept.inputs]
      exact hcoming
    · exact ⟨{ s with inputs := rest }, (step_cons hi).trans (deliver_of_atRest hrest hrst htr),
        (State.runEnded_iff _).mpr ⟨hrest, hcoming⟩, fun _ => ⟨⟨rfl, rfl, rfl, rfl, rfl⟩, ⟨rfl, rfl, rfl, rfl, rfl, rfl⟩⟩⟩

/-- Settles O1: after RESET both phases are IDLE, in which a unit shows no outcome whatever its registers hold. -/
theorem resetRuns : Obligations.ResetRuns := by
  unfold Obligations.ResetRuns
  refine ⟨fun s => ?_, fun _ => rfl, fun _ s h => edge_rst h s⟩
  obtain ⟨t, ht, hpe, hse, hpd, hsd, hsink, htaken, hrest⟩ := exec_reset_idles s
  exact ⟨t, ht, hpe, hse, hpd, hsd, hsink, htaken, hrest, State.encStatusOut_of_idle hpe, State.encInfoOut_of_idle hpe,
    State.decStatusOut_of_idle hpd, State.decInfoOut_of_idle hpd, State.decValue_of_idle hpd,
    State.decCount_of_idle hpd, fun hp => .of_idle hp hpe, fun hp => .of_idle hp hpd⟩

/-- Settles O26: these ports show the phases only, which are IDLE. -/
theorem portsAfterReset : Obligations.PortsAfterReset := by
  unfold Obligations.PortsAfterReset
  intro quiet
  have hquiet (t : State) (hpe : t.encPhase = .idle) (hpd : t.decPhase = .idle) : quiet t := by
    obtain ⟨hready, hdone, hvalid⟩ := State.encPorts_of_idle hpe
    obtain ⟨hready', hdone', hreq⟩ := State.decPorts_of_idle hpd
    exact ⟨hpe, hpd, hready, hready', hdone, hdone', hvalid, hreq⟩
  refine ⟨fun s => ?_, fun c => hquiet _ rfl rfl⟩
  obtain ⟨t, ht, hpe, -, hpd, -⟩ := exec_reset_idles s
  exact ⟨t, ht, hquiet t hpe hpd⟩

/-- Settles O59: the tests are read as conditions on the phases and the coming transfers, and a phase RUN is not at
rest. -/
theorem runEndsAtRest : Obligations.RunEndsAtRest := by
  unfold Obligations.RunEndsAtRest
  refine fun s => ⟨s.atRest_iff, ?_, fun p => p.runEnded_iff s, fun hrun => ?_⟩
  · rw [State.runEnded_iff, forall_not_command_iff]
  · have hnot : ¬ s.atRest = true := fun h => by
      obtain ⟨hpe, hpd⟩ := s.atRest_iff_ne_run.mp h
      exact hrun.elim hpe hpd
    refine ⟨eq_false_of_ne_true hnot, eq_false_of_ne_true fun h => hnot (s.runEnded_iff.mp h).left,
      fun p => eq_false_of_ne_true fun h => hnot ((p.runEnded_iff s).mp h).left, fun hi => ⟨?_, step_nil hi⟩⟩
    rw [State.stuckOnEnvironment, hi, eq_false_of_ne_true hnot]
    rfl

end Sys2Proof
end
